-- ==== Sys2Proof/Word.lean ====
section
/-! DEFINITION. The words of the transport encoder and the three-valued shadow of something
outside it (00_scope.md R6, 10_state.md R17). -/

namespace Sys2Proof

/-- A byte: the `byte` operand of a request, or one byte of a bus write (R6, R50). -/
abbrev Byte := BitVec 8

/-- A request word `REQ[9:0]` (R50). -/
abbrev ReqWord := BitVec 10

/-- A completion word `RESP[4:0]` (R51). -/
abbrev RespWord := BitVec 5

/-- A 7-bit I2C device address (R5, R146). -/
abbrev Addr := BitVec 7

/-- A count of milliseconds, as the Delay Provider takes it: unsigned, 32 bits (R5, R7). -/
abbrev Millis := BitVec 32

/-- What is known of a value held outside the block: the value, or the spec's `X`, "no known
value" (R16, R17, R18).  `X` is a third value of the spec's own; it is never read as 0 or 1. -/
inductive Shadow (α : Type) where
  | known (v : α)
  | x
  deriving DecidableEq, Repr

end Sys2Proof
end

