-- ==== Sys2Proof/Config.lean ====
section
/-! DEFINITION. The parameters fixed at construction (00_scope.md R5, 10_state.md R11) and the
arguments a construction is given (70_reset_and_hazards.md R145, R146). -/

namespace Sys2Proof

/-- The closed set of transport variants (R1, R5). -/
inductive Mode where
  | fourBit
  | eightBit
  | i2c
  deriving DecidableEq, Repr

/-- The two execution models (R5, R77, R78). -/
inductive ExecModel where
  | blocking
  | suspending
  deriving DecidableEq, Repr

/-- The number of a `MODE` where one is needed (R64). -/
def Mode.code : Mode → Nat
  | .fourBit => 0
  | .eightBit => 1
  | .i2c => 2

/-- The number of an `EXEC` where one is needed (R64). -/
def ExecModel.code : ExecModel → Nat
  | .blocking => 0
  | .suspending => 1

/-- The parameters a block keeps for its whole life (R5, R11).  `addr` and the three masks are
used in `I2C` mode only. -/
structure Config where
  mode   : Mode
  exec   : ExecModel
  holdMs : Millis
  addr   : Addr
  rsBit  : Byte
  enBit  : Byte
  blBit  : Byte
  deriving DecidableEq, Repr

/-- `NativeErr`, the parameter of R5 that is a type: which labels beside the first name an error value
of the pin and bus capability.  It is an argument without a value here (decision D16): nothing says
whether a second error exists (log entry 3). -/
opaque Config.isNativeErr : Nat → Bool

/-- `BL_RESET`: the backlight flag after construction is on (R5, R13). -/
def Config.blReset : Bool := true

/-- A legal control mask: one bit, not in bits 7:4 (R5, constraints on the masks). -/
def Config.legalMask (m : Byte) : Bool :=
  m == 0x01 || m == 0x02 || m == 0x04 || m == 0x08

/-- The three masks are legal and pairwise different (R5). -/
def Config.masksLegal (c : Config) : Bool :=
  legalMask c.rsBit && legalMask c.enBit && legalMask c.blBit &&
    c.rsBit != c.enBit && c.rsBit != c.blBit && c.enBit != c.blBit

/-- A configuration a construction can leave: in `I2C` mode the masks are legal (R5). -/
def Config.wf (c : Config) : Bool :=
  c.mode != .i2c || c.masksLegal

/-- The parameters the source's scenario and the test vectors use: address 0x27, hold 2 ms,
masks 0x01, 0x04, 0x08 (R5, 95_test_vectors.md).  DESIGN CHOICE (log entry 1): the mode and the
execution model of the reset state. -/
def Config.standard : Config where
  mode   := .i2c
  exec   := .suspending
  holdMs := 2
  addr   := 0x27
  rsBit  := 0x01
  enBit  := 0x04
  blBit  := 0x08

/-- What a construction is given: the parameters, with the address in its 8-bit carrier (R145,
R146). -/
structure ConstructArgs where
  mode   : Mode
  exec   : ExecModel
  holdMs : Millis
  addr   : BitVec 8
  rsBit  : Byte
  enBit  : Byte
  blBit  : Byte
  deriving DecidableEq, Repr

/-- The parameters a construction fixes.  The carrier's upper bit is dropped only where `ADDR`
is no parameter of the mode, or is 0 (R146). -/
def ConstructArgs.config (a : ConstructArgs) : Config where
  mode   := a.mode
  exec   := a.exec
  holdMs := a.holdMs
  addr   := a.addr.setWidth 7
  rsBit  := a.rsBit
  enBit  := a.enBit
  blBit  := a.blBit

end Sys2Proof
end

