-- ==== Sys2Proof/Syntax.lean ====
section
/-! DEFINITION. The six request forms and the two internal forms of the opcode table
(30_encoding.md R58). -/

namespace Sys2Proof

/-- One constructor per row of the opcode table: `b` is the byte, `d` is `is_data`, `v` is the
backlight `state`, `n` is a nibble already in bits 7:4. -/
inductive Instr where
  /-- `WRITE.4 b, d` (41_fourbit.md R85). -/
  | write4 (b : Byte) (d : Bool)
  /-- `SETBL.4 v` (41_fourbit.md R87). -/
  | setbl4 (v : Bool)
  /-- `WRITE.8 b, d` (42_eightbit.md R95). -/
  | write8 (b : Byte) (d : Bool)
  /-- `SETBL.8 v` (42_eightbit.md R97). -/
  | setbl8 (v : Bool)
  /-- `WRITE.I2C b, d` (43_i2c.md R106). -/
  | writeI2c (b : Byte) (d : Bool)
  /-- `SETBL.I2C v` (43_i2c.md R107). -/
  | setblI2c (v : Bool)
  /-- `WRNIB.I2C n, d`, internal: never requested from outside (43_i2c.md R105). -/
  | wrnibI2c (n : Byte) (d : Bool)
  /-- `PULSE`, internal: never requested from outside (40_contract.md R74). -/
  | pulse
  deriving DecidableEq, Repr

/-- The mode whose request port accepts the form; none for the two internal forms, which no
request names (R58). -/
def Instr.requestMode : Instr → Option Mode
  | .write4 _ _ => some .fourBit
  | .setbl4 _ => some .fourBit
  | .write8 _ _ => some .eightBit
  | .setbl8 _ => some .eightBit
  | .writeI2c _ _ => some .i2c
  | .setblI2c _ => some .i2c
  | .wrnibI2c _ _ => none
  | .pulse => none

end Sys2Proof
end

