-- ==== Sys2Proof/WellFormed.lean ====
section
/-! DEFINITION. Which terms of `Instr` are instructions: every operand of a request form is
legal (20_memory.md R35), and the nibble of `WRNIB.I2C` has bits 3:0 clear (43_i2c.md R105). -/

namespace Sys2Proof

/-- The nibble operand of `WRNIB.I2C` lies in bits 7:4 (R105: `n & 0x0F = 0`). -/
def Instr.nibbleInUpperBits (n : Byte) : Bool := n &&& 0x0F == 0

/-- Well-formedness of an instruction (R35, R105). -/
def Instr.wellFormed : Instr → Bool
  | .write4 _ _ => true
  | .setbl4 _ => true
  | .write8 _ _ => true
  | .setbl8 _ => true
  | .writeI2c _ _ => true
  | .setblI2c _ => true
  | .wrnibI2c n _ => nibbleInUpperBits n
  | .pulse => true

end Sys2Proof
end

