-- ==== Sys2Proof/Decode.lean ====
section
/-! DEFINITION. The request word `REQ10`: decoder, encoder and the text form of a request
(30_encoding.md R50, R58, R59, R62). -/

namespace Sys2Proof

/-- Why a number is no request of the block. -/
inductive DecodeError where
  /-- The number does not fit the 10-bit request word (R50, R61). -/
  | notTenBits
  /-- `OP = 1` with a `BYTE` field that is not 0x00: reserved (R59). -/
  | reservedByte
  deriving DecidableEq, Repr

/-- `REQ[9]`, the field `OP`: false is `WRITE`, true is `SETBL` (R50). -/
def ReqWord.opField (w : ReqWord) : Bool := w.getLsbD 9

/-- `REQ[8]`, the field `F`: `is_data` or `state` (R50). -/
def ReqWord.flagField (w : ReqWord) : Bool := w.getLsbD 8

/-- `REQ[7:0]`, the field `BYTE` (R50). -/
def ReqWord.byteField (w : ReqWord) : Byte := w.extractLsb' 0 8

/-- The `WRITE` form of a mode (R58). -/
def Mode.writeForm : Mode → Byte → Bool → Instr
  | .fourBit, b, d => .write4 b d
  | .eightBit, b, d => .write8 b d
  | .i2c, b, d => .writeI2c b d

/-- The `SETBL` form of a mode (R58). -/
def Mode.setblForm : Mode → Bool → Instr
  | .fourBit, v => .setbl4 v
  | .eightBit, v => .setbl8 v
  | .i2c, v => .setblI2c v

/-- The decoder of a block of the given mode: the same word selects a different form in each
mode (R50, R58), and a `SETBL` word with a byte is refused (R59). -/
def decode (m : Mode) (w : ReqWord) : Except DecodeError Instr :=
  if ReqWord.opField w then
    if ReqWord.byteField w = 0 then .ok (m.setblForm (ReqWord.flagField w))
    else .error .reservedByte
  else .ok (m.writeForm (ReqWord.byteField w) (ReqWord.flagField w))

/-- The decoder on any number: one that needs more than 10 bits is refused (R50, R61). -/
def decodeNat (m : Mode) (w : Nat) : Except DecodeError Instr :=
  if w < 1024 then decode m (BitVec.ofNat 10 w) else .error .notTenBits

/-- The request word with the given fields (R50). -/
def ReqWord.ofFields (op flag : Bool) (byte : Byte) : ReqWord :=
  BitVec.ofBool op ++ BitVec.ofBool flag ++ byte

/-- The request word of an instruction; the two internal forms have none (R58). -/
def encode : Instr → Option ReqWord
  | .write4 b d => some (ReqWord.ofFields false d b)
  | .setbl4 v => some (ReqWord.ofFields true v 0)
  | .write8 b d => some (ReqWord.ofFields false d b)
  | .setbl8 v => some (ReqWord.ofFields true v 0)
  | .writeI2c b d => some (ReqWord.ofFields false d b)
  | .setblI2c v => some (ReqWord.ofFields true v 0)
  | .wrnibI2c _ _ => none
  | .pulse => none

/-- What the decoder of the block of `State.reset` reads from a row's word.  `MODE` is no part
of the word (R50), so one word stands for three rows and the answer is the row of the reset
mode (log entry 1).  A row without bits (an internal form) has no word: none. -/
def decodeTableWord (nbits w : Nat) : Option Instr :=
  if nbits = 0 then none
  else
    match decodeNat Config.standard.mode w with
    | .ok i => some i
    | .error _ => none

/-- One hexadecimal digit, as the spec's vectors write it (R6). -/
def hexDigit (n : BitVec 4) : String :=
  ["0", "1", "2", "3", "4", "5", "6", "7", "8", "9", "A", "B", "C", "D", "E", "F"].getD n.toNat ""

/-- A byte in the spec's notation, such as `0x4D` (R6). -/
def hexByte (b : Byte) : String :=
  "0x" ++ hexDigit (b.extractLsb' 4 4) ++ hexDigit (b.extractLsb' 0 4)

/-- A flag in the spec's notation: 0 or 1 (R62). -/
def bitText (v : Bool) : String := if v then "1" else "0"

/-- The line of text of a request; the mode suffix is not written, and the internal forms have
no line (R62). -/
def Instr.text : Instr → Option String
  | .write4 b d => some ("WRITE " ++ hexByte b ++ ", " ++ bitText d)
  | .setbl4 v => some ("SETBL " ++ bitText v)
  | .write8 b d => some ("WRITE " ++ hexByte b ++ ", " ++ bitText d)
  | .setbl8 v => some ("SETBL " ++ bitText v)
  | .writeI2c b d => some ("WRITE " ++ hexByte b ++ ", " ++ bitText d)
  | .setblI2c v => some ("SETBL " ++ bitText v)
  | .wrnibI2c _ _ => none
  | .pulse => none

end Sys2Proof
end

