-- ==== Sys2Proof/Machine/State.lean ====
section
/-! DEFINITION. The state of one transport block, the events of its trace, the inputs of its
environment, and the state after construction (10_state.md, 00_scope.md R7, R8). -/

namespace Sys2Proof.Machine

/-- The output lines a pin write can name (R7, R10). -/
inductive Pin where
  | rs
  | en
  | d0
  | d1
  | d2
  | d3
  | d4
  | d5
  | d6
  | d7
  deriving DecidableEq, Repr

/-- The eleven Port identifiers that tag a failure: a line, or `I2C`, the bus as a whole (R21,
R120). -/
inductive Port where
  | line (p : Pin)
  | i2c
  deriving DecidableEq, Repr

/-- A native error value of the pin or bus capability, opaque to the block: the type parameter of R5
(decision D16).  DESIGN CHOICE (log entry 3): the type has one value, since every operation can be
answered `fail(e)` (R121); which others it has is `Config.isNativeErr`, which no proof can see.  No
definition of the machine looks inside. -/
structure NativeErr where
  label : Nat
  isOne : label = 0 ∨ Config.isNativeErr label = true
  deriving DecidableEq, Repr

/-- The completion value of a request (R15, R51). -/
inductive Completion where
  | ok
  | err (port : Port) (e : NativeErr)
  deriving DecidableEq, Repr

/-- One operation the block issues to a collaborator (R7, R30). -/
inductive Op where
  | pinWrite (p : Pin) (v : Bool)
  | busWrite (a : Addr) (bytes : List Byte)
  | delayMs (n : Millis)
  deriving DecidableEq, Repr

/-- One event of the trace (R8). -/
inductive Event where
  | pin (p : Pin) (v : Bool)
  | bus (a : Addr) (bytes : List Byte)
  | delay (n : Millis)
  | pinFail (p : Pin) (v : Bool) (e : NativeErr)
  | busFail (a : Addr) (bytes : List Byte) (e : NativeErr)
  | done (r : Completion)
  | cancelled (op : Op)
  deriving DecidableEq, Repr

/-- What the environment does about one issued operation (R7, R9, R80, R130).  Every answer is
free (R121): claims quantify over all scripts of answers. -/
inductive Answer where
  /-- The pin or bus write is answered `ok`, or the delay has ended. -/
  | ok
  /-- The pin or bus write is answered `fail(e)`. -/
  | fail (e : NativeErr)
  /-- Nothing comes: the operation stays pending (a hang while it stands; R80, R133). -/
  | stall
  /-- The owner cancels while the operation is pending (R130). -/
  | cancel
  deriving DecidableEq, Repr

/-- What the owner does to an idle block (R150), in the order it does it; cancelling is an
`Answer`, since it happens while an operation is pending. -/
inductive OwnerMove where
  /-- One request word on `REQ`. -/
  | request (w : ReqWord)
  /-- Return the resources and end the block (R147). -/
  | teardown
  /-- Construct a block on the resources (R145). -/
  | construct (a : ConstructArgs)
  deriving DecidableEq, Repr

/-- The operand latch `OP` (R12): `WRITE` is 0, `SETBL` is 1. -/
inductive ReqOp where
  | write
  | setbl
  deriving DecidableEq, Repr

/-- The line shadow: the level each line was last successfully driven to, or `X` (R16). -/
structure Lines where
  rs : Shadow Bool
  en : Shadow Bool
  d0 : Shadow Bool
  d1 : Shadow Bool
  d2 : Shadow Bool
  d3 : Shadow Bool
  d4 : Shadow Bool
  d5 : Shadow Bool
  d6 : Shadow Bool
  d7 : Shadow Bool
  deriving DecidableEq, Repr

/-- Every line at `X`, as construction leaves it (R23). -/
def Lines.unknown : Lines := ⟨.x, .x, .x, .x, .x, .x, .x, .x, .x, .x⟩

/-- The state of the block and, beside it, its inputs and its trace. -/
structure State where
  /-- The construction parameters, written by construction alone (R11). -/
  cfg : Config
  /-- A block exists: constructed and not torn down (R145, R147). -/
  live : Bool
  /-- `BL`, the backlight flag, of `I2C` mode (R13). -/
  bl : Bool
  /-- `BUSY`: a request is in flight (R14). -/
  busy : Bool
  /-- `SEQ`: the index of the next step of the request in flight (R14). -/
  seq : Nat
  /-- The operand latch `OP` (R12). -/
  op : ReqOp
  /-- The operand latch `BYTE` (R12). -/
  byte : Byte
  /-- The operand latch `ISDATA` (R12). -/
  isData : Bool
  /-- The operand latch `STATE` (R12). -/
  state : Bool
  /-- The line shadows `LINE[p]` of the parallel modes (R16). -/
  lines : Lines
  /-- The latch shadow `PEXP` of the expander, of `I2C` mode (R18). -/
  pexp : Shadow Byte
  /-- The sticky ghost flag `FAILED` (R19). -/
  failed : Bool
  /-- The sticky ghost flag `CANCELLED` (R19). -/
  cancelled : Bool
  /-- The trace, oldest event first (R8). -/
  trace : List Event
  /-- Input: what the owner will do, next move first (R150; log entry 4). -/
  owner : List OwnerMove
  /-- Input: the environment's answers to the operations still to be issued, next first; past
  its end every operation is answered `ok` (R121; log entry 5). -/
  env : List Answer
  deriving DecidableEq, Repr

/-- The machine never stops with a fault: the block's one exception, the tagged I/O failure, is
a completion value after which the block goes on (R122, R128). -/
inductive Fault where
  deriving DecidableEq, Repr

/-- Why there is no step.  Every one is safe: the machine stops where the spec gives the input
no move (93_implementation_defined.md, treatment `refuse`). -/
inductive Refusal where
  /-- Raised by `exec` for an instruction without a meaning; no arm raises it.  Safe. -/
  | notModelled (mnemonic : String)
  /-- Raised by the owner's request: a `SETBL` word whose `BYTE` is not 0x00 (R59, U14).  Safe. -/
  | reservedRequest
  /-- Raised by a request while another is in flight (R71, R150, U16).  Safe: only a direct call
  of `exec` meets it, since a step of a busy block takes no request. -/
  | requestWhileBusy
  /-- Raised by a form that the mode of the block does not have (R58).  Safe. -/
  | formOfAnotherMode
  /-- Raised by an internal form where no request is in flight: it is never requested from
  outside (R58, R63, R125).  Safe. -/
  | internalFormOutsideRequest
  /-- Raised by a request or a teardown after teardown: the block has ended (R147).  Safe. -/
  | noBlock
  /-- Raised by teardown with a request in flight (R147, R150, U16).  Safe. -/
  | teardownWhileBusy
  /-- Raised by a construction on resources a block owns (R148, R150, U16).  Safe. -/
  | resourcesOwned
  /-- Raised by a construction with an address above 0x7F (R146, U13).  Safe. -/
  | addressNotSevenBits
  /-- Raised by a construction with masks that R5 does not allow.  Safe. -/
  | masksNotLegal
  /-- Raised by a failure answered to a delay: the Delay Provider is infallible (R120, R7).
  Safe. -/
  | delayCannotFail
  /-- Raised by a pin write left unanswered: pin writes do not suspend (R78).  Safe. -/
  | pinWriteCannotStall
  /-- Raised by a cancellation at a pin write (R130, U16).  Safe. -/
  | cancelAtPinWrite
  /-- Raised by a cancellation under `Blocking`: there is no `CANCEL` port (R77, U16).  Safe. -/
  | cancelUnderBlocking
  deriving DecidableEq, Repr

/-- The outcome of an instruction or a step. -/
abbrev Result := Host.Outcome State Fault Refusal

/-- The block right after construction with the given parameters (R23, R145): idle, `BL` on, every
shadow `X`, both ghost flags 0, nothing emitted.  DESIGN CHOICE (log entry 2): `SEQ` and the
operand latches, which the spec gives no value, hold 0. -/
def State.construct (c : Config) : State where
  cfg       := c
  live      := true
  bl        := Config.blReset
  busy      := false
  seq       := 0
  op        := .write
  byte      := 0
  isData    := false
  state     := false
  lines     := .unknown
  pexp      := .x
  failed    := false
  cancelled := false
  trace     := []
  owner     := []
  env       := []

/-- The machine right after reset, which is construction (R23), with the parameters of
`Config.standard` (log entry 1). -/
def State.reset : State := State.construct Config.standard

end Sys2Proof.Machine
end

