-- ==== Sys2Proof/Machine/Operands.lean ====
section
/-! DEFINITION. Operand assembly: the nibbles of a byte and the levels a nibble or a byte puts
on the data lines (30_encoding.md R52, R55, R56; 20_memory.md R31, R32). -/

namespace Sys2Proof.Machine

/-- `hi4(b) = (b >> 4) & 0xF`, the upper nibble for four lines (R55). -/
def hi4 (b : Byte) : BitVec 4 := ((b >>> 4) &&& 0x0F).setWidth 4

/-- `lo4(b) = b & 0xF`, the lower nibble for four lines (R55). -/
def lo4 (b : Byte) : BitVec 4 := (b &&& 0x0F).setWidth 4

/-- `up(b) = b & 0xF0`, the upper nibble in bits 7:4 (R56). -/
def up (b : Byte) : Byte := b &&& 0xF0

/-- `dn(b) = (b << 4) & 0xF0`, the lower nibble in bits 7:4 (R56, R60). -/
def dn (b : Byte) : Byte := (b <<< 4) &&& 0xF0

/-- `PRESENT4(n)`: bit k on line D(4+k), in ascending line order (R52, R86; order: decision D5). -/
def present4 (n : BitVec 4) : List Op :=
  [.pinWrite .d4 (n.getLsbD 0), .pinWrite .d5 (n.getLsbD 1),
   .pinWrite .d6 (n.getLsbD 2), .pinWrite .d7 (n.getLsbD 3)]

/-- `PRESENT8(b)`: bit i on line D`i`, in ascending line order (R52, R96; decisions D5, D7). -/
def present8 (b : Byte) : List Op :=
  [.pinWrite .d0 (b.getLsbD 0), .pinWrite .d1 (b.getLsbD 1),
   .pinWrite .d2 (b.getLsbD 2), .pinWrite .d3 (b.getLsbD 3),
   .pinWrite .d4 (b.getLsbD 4), .pinWrite .d5 (b.getLsbD 5),
   .pinWrite .d6 (b.getLsbD 6), .pinWrite .d7 (b.getLsbD 7)]

/-- The data lines of a mode, in ascending order (R5, R10, R52). -/
def dataPins : Mode → List Pin
  | .fourBit => [.d4, .d5, .d6, .d7]
  | .eightBit => [.d0, .d1, .d2, .d3, .d4, .d5, .d6, .d7]
  | .i2c => []

/-- The lines `PINCMD` reaches in a mode: none in `I2C` mode (R10). -/
def modePins (m : Mode) : List Pin :=
  match m with
  | .i2c => []
  | .fourBit => .rs :: .en :: dataPins .fourBit
  | .eightBit => .rs :: .en :: dataPins .eightBit

end Sys2Proof.Machine
end

