-- ==== Sys2Proof/Machine/Flags.lean ====
section
/-! DEFINITION. The control bits of an expander byte and the status word of a completion.  The
block has no condition codes (10_state.md R15): its flags are the register-select, enable and
backlight bits of R53 and R57, and the completion word of R51. -/

namespace Sys2Proof.Machine

/-- A mask if its flag is set, else nothing (R57). -/
def maskIf (flag : Bool) (mask : Byte) : Byte := if flag then mask else 0

/-- `x = n | (d ? RS_BIT : 0) | (BL ? BL_BIT : 0)` (R57). -/
def expanderByte (c : Config) (n : Byte) (d bl : Bool) : Byte :=
  n ||| maskIf d c.rsBit ||| maskIf bl c.blBit

/-- The last byte of an assert transaction, `x | EN_BIT` (R57). -/
def assertByte (c : Config) (x : Byte) : Byte := x ||| c.enBit

/-- Is a bit of the mask set in the byte? (R65) -/
def hasMask (y mask : Byte) : Bool := y &&& mask != 0

/-- The controller's side of an expander byte (R65). -/
structure ExpanderView where
  rs     : Bool
  en     : Bool
  bl     : Bool
  nibble : BitVec 4
  deriving DecidableEq, Repr

/-- The levels an expander byte puts on the controller's lines (R53, R65). -/
def readBack (c : Config) (y : Byte) : ExpanderView where
  rs     := hasMask y c.rsBit
  en     := hasMask y c.enBit
  bl     := hasMask y c.blBit
  nibble := y.extractLsb' 4 4

/-- The code of a Port in a completion word (R51). -/
def Port.code : Port → BitVec 4
  | .line .rs => 0
  | .line .en => 1
  | .line .d0 => 2
  | .line .d1 => 3
  | .line .d2 => 4
  | .line .d3 => 5
  | .line .d4 => 6
  | .line .d5 => 7
  | .line .d6 => 8
  | .line .d7 => 9
  | .i2c => 10

/-- The completion word: `ERR` in bit 4, the Port in bits 3:0; the native error travels beside
it (R51). -/
def Completion.word : Completion → RespWord
  | .ok => 0
  | .err port _ => 1#1 ++ port.code

/-- The native error that travels beside the completion word (R51, R122). -/
def Completion.native : Completion → Option NativeErr
  | .ok => none
  | .err _ e => some e

/-- What an event delivers on `RESP`: a completion value and nothing else (R10, R15). -/
def Event.response : Event → Option Completion
  | .done r => some r
  | .pin _ _ => none
  | .bus _ _ => none
  | .delay _ => none
  | .pinFail _ _ _ => none
  | .busFail _ _ _ => none
  | .cancelled _ => none

end Sys2Proof.Machine
end

