-- ==== Sys2Proof/Machine/Ops.lean ====
section
/-! DEFINITION. The shared operations: the line shadow, the answers of the environment, the
three output operations, the tagged I/O failure (the block's one exception), cancellation, and
running a list of steps (00_scope.md R7, 60_exceptions.md R120 to R131). -/

namespace Sys2Proof.Machine

/-- The shadow of a line (R16). -/
def Lines.get (l : Lines) : Pin → Shadow Bool
  | .rs => l.rs
  | .en => l.en
  | .d0 => l.d0
  | .d1 => l.d1
  | .d2 => l.d2
  | .d3 => l.d3
  | .d4 => l.d4
  | .d5 => l.d5
  | .d6 => l.d6
  | .d7 => l.d7

/-- The line shadow with one line's entry replaced (R16). -/
def Lines.set (l : Lines) (p : Pin) (v : Shadow Bool) : Lines :=
  match p with
  | .rs => { l with rs := v }
  | .en => { l with en := v }
  | .d0 => { l with d0 := v }
  | .d1 => { l with d1 := v }
  | .d2 => { l with d2 := v }
  | .d3 => { l with d3 := v }
  | .d4 => { l with d4 := v }
  | .d5 => { l with d5 := v }
  | .d6 => { l with d6 := v }
  | .d7 => { l with d7 := v }

/-- What the environment does about the operation issued now (R121; log entry 5). -/
def State.answer (s : State) : Answer := s.env.headD .ok

/-- The answer has been taken. -/
def State.answered (s : State) : State := { s with env := s.env.tail }

/-- Append one event to the trace (R8). -/
def State.emit (s : State) (e : Event) : State := { s with trace := s.trace ++ [e] }

/-- Replace the shadow of one line (R16). -/
def State.setLine (s : State) (p : Pin) (v : Shadow Bool) : State :=
  { s with lines := s.lines.set p v }

/-- Replace the shadow of the expander's latch (R18). -/
def State.setPexp (s : State) (v : Shadow Byte) : State := { s with pexp := v }

/-- The next step of the request (R14). -/
def State.advance (s : State) : State := { s with seq := s.seq + 1 }

/-- `complete Ok` (R7, R72). -/
def State.completeOk (s : State) : State := { s.emit (.done .ok) with busy := false }

/-- `raise IoError(port, e)`, the block's one exception: nothing is saved and nothing is undone;
the request ends with `Err(port, e)` and the block is idle (R122, R127).  There is no return
operation: the next request runs from its own step 0 (R128). -/
def State.raiseIoError (s : State) (port : Port) (e : NativeErr) : State :=
  { s.emit (.done (.err port e)) with busy := false, failed := true }

/-- The owner's cancellation of the pending operation (R130). -/
def State.abandon (s : State) (op : Op) : State :=
  { s.emit (.cancelled op) with busy := false, cancelled := true }

/-- How far a list of steps has come. -/
inductive Progress where
  /-- Every step so far is done. -/
  | running (s : State)
  /-- The request has ended early: a failure or a cancellation. -/
  | ended (s : State)
  /-- An operation is pending. -/
  | waiting (s : State)
  /-- The environment offered something that has no move. -/
  | refused (r : Refusal)
  deriving DecidableEq, Repr

/-- The shadow the expander's latch has after a transaction: its last byte (R18). -/
def latchAfter (bytes : List Byte) (before : Shadow Byte) : Shadow Byte :=
  match bytes.getLast? with
  | some y => .known y
  | none => before

/-- Cancellation of a pending operation; under `Blocking` there is no `CANCEL` port (R77, R130). -/
def cancelPending (op : Op) (s : State) : Progress :=
  match s.cfg.exec with
  | .suspending => .ended (s.abandon op)
  | .blocking => .refused .cancelUnderBlocking

/-- `PinWrite(p, v)` (R7, R16, R121): not a suspension point (R78), so it can neither stay
unanswered nor be cancelled (R130). -/
def pinWrite (p : Pin) (v : Bool) (s : State) : Progress :=
  match s.answer with
  | .ok => .running ((s.answered.setLine p (.known v)).emit (.pin p v)).advance
  | .fail e => .ended (((s.answered.setLine p .x).emit (.pinFail p v e)).raiseIoError (.line p) e)
  | .stall => .refused .pinWriteCannotStall
  | .cancel => .refused .cancelAtPinWrite

/-- `BusWrite(a, bytes)` (R7, R18, R121); cancelled while pending, the latch is unknown (R131). -/
def busWrite (a : Addr) (bytes : List Byte) (s : State) : Progress :=
  match s.answer with
  | .ok => .running ((s.answered.setPexp (latchAfter bytes s.pexp)).emit (.bus a bytes)).advance
  | .fail e => .ended (((s.answered.setPexp .x).emit (.busFail a bytes e)).raiseIoError .i2c e)
  | .stall => .waiting s
  | .cancel => cancelPending (.busWrite a bytes) (s.answered.setPexp .x)

/-- `DelayMs(n)` (R7): it cannot fail (R120); cancelled while pending, every shadow keeps its value
(R130, R131). -/
def delayMs (n : Millis) (s : State) : Progress :=
  match s.answer with
  | .ok => .running (s.answered.emit (.delay n)).advance
  | .fail _ => .refused .delayCannotFail
  | .stall => .waiting s
  | .cancel => cancelPending (.delayMs n) s.answered

/-- Issue one operation (R7, R40). -/
def issue : Op → State → Progress
  | .pinWrite p v, s => pinWrite p v s
  | .busWrite a bytes, s => busWrite a bytes s
  | .delayMs n, s => delayMs n s

/-- Steps in order, each issued only after the one before has been answered `ok` or has ended;
the first that is not stops the list (R40, R73). -/
def perform : List Op → State → Progress
  | [], s => .running s
  | op :: ops, s =>
    match issue op s with
    | .running t => perform ops t
    | .ended t => .ended t
    | .waiting t => .waiting t
    | .refused r => .refused r

/-- The end of a request: it completes `Ok` when its steps have run (R72); it is over after a
failure or a cancellation (R122, R130); a pending operation keeps it in flight (R80). -/
def finishRequest : Progress → Result
  | .running s => .next s.completeOk
  | .ended s => .next s
  | .waiting s => .next s
  | .refused r => .refused r

/-- The end of an internal form: no completion of its own (R73). -/
def finishInternal : Progress → Result
  | .running s => .next s
  | .ended s => .next s
  | .waiting s => .next s
  | .refused r => .refused r

end Sys2Proof.Machine
end

