-- ==== Sys2Proof/Machine/Contract.lean ====
section
/-! DEFINITION. What all variants share: acceptance of a request and the enable pulse of the
parallel modes (40_contract.md R70 to R74). -/

namespace Sys2Proof.Machine

/-- The steps of `PULSE`: rising edge, hold, falling edge (R74). -/
def pulseSteps (c : Config) : List Op :=
  [.pinWrite .en true, .delayMs c.holdMs, .pinWrite .en false]

/-- The last step of a parallel `WRITE`: register-select back to low after a data byte (R73, R85
step 15, R95 step 12). -/
def restoreRs (d : Bool) : List Op := if d then [.pinWrite .rs false] else []

/-- Acceptance of a `WRITE`: the latches `OP`, `BYTE` and `ISDATA`, `BUSY` and `SEQ` (R12, R71). -/
def State.acceptWrite (s : State) (b : Byte) (d : Bool) : State :=
  { s with busy := true, seq := 0, op := .write, byte := b, isData := d }

/-- Acceptance of a `SETBL`: the latches `OP` and `STATE`, `BUSY` and `SEQ` (R12, R71). -/
def State.acceptSetbl (s : State) (v : Bool) : State :=
  { s with busy := true, seq := 0, op := .setbl, state := v }

/-- A request of a mode is accepted by an idle block of that mode (R58, R71, R147). -/
def whenAccepted (m : Mode) (s : State) (k : Result) : Result :=
  if s.live = false then .refused .noBlock
  else if s.cfg.mode ≠ m then .refused .formOfAnotherMode
  else if s.busy = true then .refused .requestWhileBusy
  else k

/-- An internal form runs inside a request of its modes only (R58, R63). -/
def whenInFlight (modes : List Mode) (s : State) (k : Result) : Result :=
  if s.live = false then .refused .noBlock
  else if s.cfg.mode ∉ modes then .refused .formOfAnotherMode
  else if s.busy = false then .refused .internalFormOutsideRequest
  else k

/-- `PULSE` (R74). -/
def execPulse (s : State) : Result :=
  whenInFlight [.fourBit, .eightBit] s (finishInternal (perform (pulseSteps s.cfg) s))

end Sys2Proof.Machine
end

