-- ==== Sys2Proof/Machine/EightBit.lean ====
section
/-! DEFINITION. The eight-bit parallel transport (42_eightbit.md R95 to R98). -/

namespace Sys2Proof.Machine

/-- The steps of `WRITE.8 b, d` (R95, R98). -/
def write8Steps (c : Config) (b : Byte) (d : Bool) : List Op :=
  .pinWrite .rs d :: (present8 b ++ pulseSteps c ++ restoreRs d)

/-- `WRITE.8 b, d` (R95). -/
def execWrite8 (b : Byte) (d : Bool) (s : State) : Result :=
  whenAccepted .eightBit s (finishRequest (perform (write8Steps s.cfg b d) (s.acceptWrite b d)))

/-- `SETBL.8 v`: no step (R97). -/
def execSetbl8 (v : Bool) (s : State) : Result :=
  whenAccepted .eightBit s (finishRequest (perform [] (s.acceptSetbl v)))

end Sys2Proof.Machine
end

