-- ==== Sys2Proof/Machine/FourBit.lean ====
section
/-! DEFINITION. The four-bit parallel transport (41_fourbit.md R85 to R88). -/

namespace Sys2Proof.Machine

/-- The steps of `WRITE.4 b, d` (R85, R88). -/
def write4Steps (c : Config) (b : Byte) (d : Bool) : List Op :=
  .pinWrite .rs d :: (present4 (hi4 b) ++ pulseSteps c ++ present4 (lo4 b) ++ pulseSteps c
    ++ restoreRs d)

/-- `WRITE.4 b, d` (R85). -/
def execWrite4 (b : Byte) (d : Bool) (s : State) : Result :=
  whenAccepted .fourBit s (finishRequest (perform (write4Steps s.cfg b d) (s.acceptWrite b d)))

/-- `SETBL.4 v`: no step (R87). -/
def execSetbl4 (v : Bool) (s : State) : Result :=
  whenAccepted .fourBit s (finishRequest (perform [] (s.acceptSetbl v)))

end Sys2Proof.Machine
end

