-- ==== Sys2Proof/Machine/I2c.lean ====
section
/-! DEFINITION. The I2C-expander transport (43_i2c.md R105 to R108). -/

namespace Sys2Proof.Machine

/-- The steps of `WRNIB.I2C n, d` with the backlight flag as it is when `x` is computed: assert
transaction, hold, deassert transaction (R105). -/
def wrnibSteps (c : Config) (bl : Bool) (n : Byte) (d : Bool) : List Op :=
  let x := expanderByte c n d bl
  [.busWrite c.addr [x, assertByte c x], .delayMs c.holdMs, .busWrite c.addr [x]]

/-- The steps of `WRITE.I2C b, d`: the upper nibble, then the lower (R106, R108). -/
def writeI2cSteps (c : Config) (bl : Bool) (b : Byte) (d : Bool) : List Op :=
  wrnibSteps c bl (up b) d ++ wrnibSteps c bl (dn b) d

/-- `SETBL.I2C` stores the flag at acceptance, before any output, and goes on as the command
write of 0x00 (R12, R107, R108). -/
def State.storeBacklight (s : State) (v : Bool) : State :=
  { s with bl := v, byte := 0, isData := false }

/-- `WRNIB.I2C n, d` (R105). -/
def execWrnibI2c (n : Byte) (d : Bool) (s : State) : Result :=
  whenInFlight [.i2c] s (finishInternal (perform (wrnibSteps s.cfg s.bl n d) s))

/-- `WRITE.I2C b, d` (R106). -/
def execWriteI2c (b : Byte) (d : Bool) (s : State) : Result :=
  whenAccepted .i2c s
    (finishRequest (perform (writeI2cSteps s.cfg s.bl b d) (s.acceptWrite b d)))

/-- `SETBL.I2C v` (R107). -/
def execSetblI2c (v : Bool) (s : State) : Result :=
  whenAccepted .i2c s
    (finishRequest (perform (writeI2cSteps s.cfg v 0x00 false)
      ((s.acceptSetbl v).storeBacklight v)))

end Sys2Proof.Machine
end

