-- ==== Sys2Proof/Machine/Dispatch.lean ====
section
/-! DEFINITION. One arm per row of the opcode table (30_encoding.md R58, 40_contract.md R70). -/

namespace Sys2Proof.Machine

def exec (i : Instr) (s : State) : Host.Outcome State Fault Refusal :=
  match i with
  | .write4 b d => Sys2Proof.Machine.execWrite4 b d s
  | .setbl4 v => Sys2Proof.Machine.execSetbl4 v s
  | .write8 b d => Sys2Proof.Machine.execWrite8 b d s
  | .setbl8 v => Sys2Proof.Machine.execSetbl8 v s
  | .writeI2c b d => Sys2Proof.Machine.execWriteI2c b d s
  | .setblI2c v => Sys2Proof.Machine.execSetblI2c v s
  | .wrnibI2c n d => Sys2Proof.Machine.execWrnibI2c n d s
  | .pulse => Sys2Proof.Machine.execPulse s

end Sys2Proof.Machine
end

