-- ==== Sys2Proof/Machine/Sequencer.lean ====
section
/-! DEFINITION. The request in flight: its step table from the latches and the configuration, and
going on with it (10_state.md R14, 40_contract.md R70, R80). -/

namespace Sys2Proof.Machine

/-- The step table of the request in flight, dispatched on `MODE` and `OP` (R70, R88, R98, R108).
In `I2C` mode a `SETBL` has latched the byte 0x00 and the flag 0 (R107). -/
def requestSteps (s : State) : List Op :=
  match s.cfg.mode, s.op with
  | .fourBit, .write => write4Steps s.cfg s.byte s.isData
  | .fourBit, .setbl => []
  | .eightBit, .write => write8Steps s.cfg s.byte s.isData
  | .eightBit, .setbl => []
  | .i2c, .write => writeI2cSteps s.cfg s.bl s.byte s.isData
  | .i2c, .setbl => writeI2cSteps s.cfg s.bl s.byte s.isData

/-- The operation the request in flight is at (R14). -/
def State.pendingOp (s : State) : Option Op := (requestSteps s)[s.seq]?

/-- A step at which the caller's context yields under `Suspending`: a delay or a bus write (R78). -/
def Op.suspends : Op → Bool
  | .pinWrite _ _ => false
  | .busWrite _ _ => true
  | .delayMs _ => true

/-- Go on with the request in flight from its pending step (R14, R80). -/
def resume (s : State) : Result :=
  finishRequest (perform ((requestSteps s).drop s.seq) s)

end Sys2Proof.Machine
end

