-- ==== Sys2Proof/Machine/Owner.lean ====
section
/-! DEFINITION. The owner's moves on an idle block: request, construction, teardown
(70_reset_and_hazards.md R145, R147, R150). -/

namespace Sys2Proof.Machine

/-- One word on `REQ`: refused if it is no request of the block (R59), else run (R71). -/
def takeRequest (w : ReqWord) (s : State) : Result :=
  if s.live = false then .refused .noBlock
  else
    match decode s.cfg.mode w with
    | .ok i => exec i s
    | .error _ => .refused .reservedRequest

/-- Construction on the resources of a block that has ended (R145): no output, and every state
element at its reset value (R23).  An address above 0x7F is refused (R146), masks that R5 does not
allow are refused, and so are resources that a block owns (R148). -/
def takeConstruct (a : ConstructArgs) (s : State) : Result :=
  if s.live = true then .refused .resourcesOwned
  else if a.mode = .i2c ∧ 0x7F < a.addr then .refused .addressNotSevenBits
  else if a.config.wf = false then .refused .masksNotLegal
  else .next { State.construct a.config with owner := s.owner, env := s.env }

/-- Teardown: only of an idle block; no output; the lines and the expander keep their levels
(R147). -/
def takeTeardown (s : State) : Result :=
  if s.live = false then .refused .noBlock
  else if s.busy = true then .refused .teardownWhileBusy
  else .next { s with live := false }

/-- One move of the owner (R150). -/
def takeMove : OwnerMove → State → Result
  | .request w, s => takeRequest w s
  | .construct a, s => takeConstruct a s
  | .teardown, s => takeTeardown s

/-- The owner's next move is taken from its list; with none, an idle block waits (R71, R125). -/
def ownerStep (s : State) : Result :=
  match s.owner with
  | [] => .next s
  | mv :: rest => takeMove mv { s with owner := rest }

/-- One step of the block: a request in flight goes on and no other is looked at (R71); an idle
block takes the owner's next move. -/
def blockStep (s : State) : Result := if s.busy = true then resume s else ownerStep s

/-- The owner's next move is the request word `w`; a number that is no 10-bit word is not a
request, and nothing is placed (R50). -/
def placeRequest (s : State) (w : Nat) : State :=
  if w < 1024 then
    { s with live := true, busy := false, owner := .request (BitVec.ofNat 10 w) :: s.owner }
  else s

end Sys2Proof.Machine
end

