-- ==== Sys2Proof/Machine/Step.lean ====
section
/-! DEFINITION. The step of the machine, and where a request is placed for the next step. -/

namespace Sys2Proof.Machine

/-- One step: the whole of the request the owner issues, up to its completion or to an operation
that stays pending; or the rest of the request in flight; or another move of the owner (R71, R72,
R80, R150; log entry 4). -/
def step (s : State) : Host.Outcome State Fault Refusal := blockStep s

/-- The state whose next step takes the request word `w` (log entry 4).  A request is placed
first in the owner's list, and the block is made live and idle, which `State.reset` already is. -/
def State.withFetchWord (s : State) (_nbits w : Nat) : State := placeRequest s w

end Sys2Proof.Machine
end

