-- ==== Sys2Proof/Machine/Observe.lean ====
section
/-! DEFINITION. Observations of a trace: the shadows and ghost flags it must have left, what was
delivered on `RESP`, how many operations of each kind it holds, and what the controller has latched
(10_state.md R15 to R19, 20_memory.md R36, 60_exceptions.md R121, R131, R137). -/

namespace Sys2Proof.Machine

/-- The line shadow after one more event (R16, R121). -/
def linesAfter (l : Lines) : Event → Lines
  | .pin p v => l.set p (.known v)
  | .pinFail p _ _ => l.set p .x
  | .bus _ _ => l
  | .delay _ => l
  | .busFail _ _ _ => l
  | .done _ => l
  | .cancelled _ => l

/-- The latch shadow after one more event (R18, R121, R131). -/
def pexpAfter (y : Shadow Byte) : Event → Shadow Byte
  | .bus _ bytes => latchAfter bytes y
  | .busFail _ _ _ => .x
  | .cancelled (.busWrite _ _) => .x
  | .cancelled (.delayMs _) => y
  | .cancelled (.pinWrite _ _) => y
  | .pin _ _ => y
  | .pinFail _ _ _ => y
  | .delay _ => y
  | .done _ => y

/-- A request has completed `Err` (R19, R122). -/
def Event.isErr : Event → Bool
  | .done (.err _ _) => true
  | .done .ok => false
  | .pin _ _ => false
  | .bus _ _ => false
  | .delay _ => false
  | .pinFail _ _ _ => false
  | .busFail _ _ _ => false
  | .cancelled _ => false

/-- A request has been cancelled (R19, R130). -/
def Event.isCancelled : Event → Bool
  | .cancelled _ => true
  | .done _ => false
  | .pin _ _ => false
  | .bus _ _ => false
  | .delay _ => false
  | .pinFail _ _ _ => false
  | .busFail _ _ _ => false

/-- The completion values delivered on `RESP`, in order (R10, R15, R72, R122). -/
def responses (trace : List Event) : List Completion := trace.filterMap Event.response

/-- How many pin writes succeeded (R36). -/
def pinWrites (trace : List Event) : Nat :=
  trace.countP fun e => match e with
    | .pin _ _ => true
    | _ => false

/-- How many bus writes succeeded (R36). -/
def busWrites (trace : List Event) : Nat :=
  trace.countP fun e => match e with
    | .bus _ _ => true
    | _ => false

/-- How many bytes the successful bus writes carried (R36). -/
def busBytes (trace : List Event) : Nat :=
  (trace.map fun e => match e with
    | .bus _ bytes => bytes.length
    | _ => 0).sum

/-- How many delays have ended (R36). -/
def delays (trace : List Event) : Nat :=
  trace.countP fun e => match e with
    | .delay _ => true
    | _ => false

/-- The milliseconds of the delays that have ended, by the Delay Provider's count: a lower bound
of the time the trace took (R135, R160). -/
def heldMs (trace : List Event) : Nat :=
  (trace.map fun e => match e with
    | .delay n => n.toNat
    | _ => 0).sum

/-- The enable pulses of the parallel modes: rising edge, hold, falling edge, one after the other
(R74, R89, R99). -/
def pinPulses (hold : Millis) : List Event → Nat
  | [] => 0
  | e :: rest =>
    (if [e] ++ rest.take 2 = [.pin .en true, .delay hold, .pin .en false] then 1 else 0)
      + pinPulses hold rest

/-- One entry of the latch trace: register-select and the data lines, highest line first, any
of which may be `X` (R137). -/
structure LatchTuple where
  rs   : Shadow Bool
  data : List (Shadow Bool)
  deriving DecidableEq, Repr

/-- The latch trace is read event by event; this is what has been seen so far. -/
structure Watch where
  lines  : Lines
  pexp   : Shadow Byte
  tuples : List LatchTuple
  deriving DecidableEq, Repr

/-- Nothing seen: every level unknown (R17). -/
def Watch.start : Watch := ⟨.unknown, .x, []⟩

/-- A pin write of enable to low latches where enable was known high (R137). -/
def watchPin (m : Mode) (w : Watch) (p : Pin) (v : Bool) : Watch :=
  let falls := p = .en ∧ v = false ∧ w.lines.en = .known true
  let tuple : LatchTuple := ⟨w.lines.rs, (dataPins m).reverse.map w.lines.get⟩
  { w with lines := w.lines.set p (.known v)
           tuples := if falls then w.tuples ++ [tuple] else w.tuples }

/-- A level read from the byte that lowers enable: unknown where the byte before differs (R137). -/
def settled (before now : Bool) : Shadow Bool := if before = now then .known now else .x

/-- The tuple of a byte `y` that lowers enable after the byte `y0` (R137). -/
def fallTuple (c : Config) (y0 y : Byte) : LatchTuple where
  rs   := settled (hasMask y0 c.rsBit) (hasMask y c.rsBit)
  data := [settled (y0.getLsbD 7) (y.getLsbD 7), settled (y0.getLsbD 6) (y.getLsbD 6),
           settled (y0.getLsbD 5) (y.getLsbD 5), settled (y0.getLsbD 4) (y.getLsbD 4)]

/-- A byte on the expander latches where it clears enable after a byte that set it (R137). -/
def watchByte (c : Config) (w : Watch) (y : Byte) : Watch :=
  match w.pexp with
  | .x => { w with pexp := .known y }
  | .known y0 =>
    { w with pexp := .known y
             tuples := if hasMask y0 c.enBit = true ∧ hasMask y c.enBit = false
                       then w.tuples ++ [fallTuple c y0 y] else w.tuples }

/-- One event of the trace, watched (R137). -/
def watch (c : Config) (w : Watch) : Event → Watch
  | .pin p v => watchPin c.mode w p v
  | .pinFail p _ _ => { w with lines := w.lines.set p .x }
  | .bus _ bytes => bytes.foldl (watchByte c) w
  | .busFail _ _ _ => { w with pexp := .x }
  | .cancelled (.busWrite _ _) => { w with pexp := .x }
  | .cancelled (.delayMs _) => w
  | .cancelled (.pinWrite _ _) => w
  | .delay _ => w
  | .done _ => w

/-- The latch trace of a run: the falls of enable that are certain, in order (R137). -/
def latchTrace (c : Config) (trace : List Event) : List LatchTuple :=
  (trace.foldl (watch c) .start).tuples

end Sys2Proof.Machine
end

