-- ==== Sys2Proof/Safety.lean ====
section
/-! DEFINITION. What claims are stated in: when a request can be accepted, which scripts answer
`ok`, the events of each request's step table written out from the spec, which events a block of a
configuration may emit, and what every step keeps. -/

namespace Sys2Proof.Machine

/-- An idle block of the mode: it accepts a request of the mode (R58, R71). -/
abbrev State.ready (s : State) (m : Mode) : Prop :=
  s.live = true ∧ s.busy = false ∧ s.cfg.mode = m

/-- A block of one of the modes with a request in flight: an internal form can run (R63). -/
abbrev State.inFlight (s : State) (modes : List Mode) : Prop :=
  s.live = true ∧ s.busy = true ∧ s.cfg.mode ∈ modes

/-- The environment answers each of the next `n` operations `ok` (R121). -/
abbrev State.answersOk (s : State) (n : Nat) : Prop := ∀ a ∈ s.env.take n, a = .ok

/-- No request of the run has failed or been cancelled: the premises of R151. -/
abbrev State.undisturbed (s : State) : Prop := s.failed = false ∧ s.cancelled = false

/-- The requests still to come in a run: a teardown and a construction are no requests, and none
that comes after them belongs to the run (R70, R147, R151). -/
def runRequests : List OwnerMove → List ReqWord
  | .request w :: rest => w :: runRequests rest
  | .teardown :: _ => []
  | .construct _ :: _ => []
  | [] => []

/-- The run has ended: its last request is over.  A teardown or the construction of the next run may
be left to do (R151). -/
abbrev State.runEnded (s : State) : Prop :=
  s.busy = false ∧ (s.live = true → runRequests s.owner = [])

/-- The events a state has beyond those of an earlier one. -/
def State.newEvents (before after : State) : List Event := after.trace.drop before.trace.length

/-- The events of `WRITE.4 b, d` when nothing fails, row by row from the step table (R88). -/
def write4Events (c : Config) (b : Byte) (d : Bool) : List Event :=
  [.pin .rs d,
   .pin .d4 (b.getLsbD 4), .pin .d5 (b.getLsbD 5), .pin .d6 (b.getLsbD 6), .pin .d7 (b.getLsbD 7),
   .pin .en true, .delay c.holdMs, .pin .en false,
   .pin .d4 (b.getLsbD 0), .pin .d5 (b.getLsbD 1), .pin .d6 (b.getLsbD 2), .pin .d7 (b.getLsbD 3),
   .pin .en true, .delay c.holdMs, .pin .en false] ++ (if d then [.pin .rs false] else [])

/-- The events of `WRITE.8 b, d` when nothing fails, row by row from the step table (R98). -/
def write8Events (c : Config) (b : Byte) (d : Bool) : List Event :=
  [.pin .rs d,
   .pin .d0 (b.getLsbD 0), .pin .d1 (b.getLsbD 1), .pin .d2 (b.getLsbD 2), .pin .d3 (b.getLsbD 3),
   .pin .d4 (b.getLsbD 4), .pin .d5 (b.getLsbD 5), .pin .d6 (b.getLsbD 6), .pin .d7 (b.getLsbD 7),
   .pin .en true, .delay c.holdMs, .pin .en false] ++ (if d then [.pin .rs false] else [])

/-- The byte `u` of the upper nibble: `up(b) | rs | bl` (R106). -/
def upperImage (c : Config) (bl : Bool) (b : Byte) (d : Bool) : Byte :=
  (b &&& 0xF0) ||| (if d then c.rsBit else 0) ||| (if bl then c.blBit else 0)

/-- The byte `l` of the lower nibble: `dn(b) | rs | bl` (R106). -/
def lowerImage (c : Config) (bl : Bool) (b : Byte) (d : Bool) : Byte :=
  ((b <<< 4) &&& 0xF0) ||| (if d then c.rsBit else 0) ||| (if bl then c.blBit else 0)

/-- The events of `WRITE.I2C b, d` when nothing fails, row by row from the step table (R106,
R108). -/
def writeI2cEvents (c : Config) (bl : Bool) (b : Byte) (d : Bool) : List Event :=
  let u := upperImage c bl b d
  let l := lowerImage c bl b d
  [.bus c.addr [u, u ||| c.enBit], .delay c.holdMs, .bus c.addr [u],
   .bus c.addr [l, l ||| c.enBit], .delay c.holdMs, .bus c.addr [l]]

/-- The events of a request issued in a state, when nothing fails and nothing is cancelled; the
internal forms are no requests. -/
def requestEvents (s : State) : Instr → List Event
  | .write4 b d => write4Events s.cfg b d
  | .setbl4 _ => []
  | .write8 b d => write8Events s.cfg b d
  | .setbl8 _ => []
  | .writeI2c b d => writeI2cEvents s.cfg s.bl b d
  | .setblI2c v => writeI2cEvents s.cfg v 0x00 false
  | .wrnibI2c _ _ => []
  | .pulse => []

/-- The backlight flag once the instruction has been accepted: `SETBL.I2C` stores its operand, no
other form stores one (R13, R107). -/
def flagAfter (s : State) : Instr → Bool
  | .setblI2c v => v
  | .write4 _ _ => s.bl
  | .setbl4 _ => s.bl
  | .write8 _ _ => s.bl
  | .setbl8 _ => s.bl
  | .writeI2c _ _ => s.bl
  | .wrnibI2c _ _ => s.bl
  | .pulse => s.bl

/-- An event at a suspension point: a delay or a bus write (R78). -/
def Event.suspends : Event → Bool
  | .delay _ => true
  | .bus _ _ => true
  | .pin _ _ => false
  | .pinFail _ _ _ => false
  | .busFail _ _ _ => false
  | .done _ => false
  | .cancelled _ => false

/-- In what a move adds to the trace, a failure is followed by its `Done(Err)` and nothing else, with
the same Port and error, the block being idle and `FAILED` set; no `Done(Err)` comes otherwise
(R122). -/
abbrev State.failureIsLast (s t : State) : Prop :=
  (∀ pre p v e post, s.newEvents t = pre ++ Event.pinFail p v e :: post →
    post = [.done (.err (.line p) e)] ∧ responses post = [.err (.line p) e] ∧
    t.busy = false ∧ t.failed = true) ∧
  (∀ pre a bytes e post, s.newEvents t = pre ++ Event.busFail a bytes e :: post →
    post = [.done (.err .i2c e)] ∧ responses post = [.err .i2c e] ∧
    t.busy = false ∧ t.failed = true) ∧
  (∀ pre port e post, s.newEvents t = pre ++ Event.done (.err port e) :: post →
    post = [] ∧ ∃ pre', (∃ p v, port = .line p ∧ pre = pre' ++ [Event.pinFail p v e]) ∨
      (∃ a bytes, port = .i2c ∧ pre = pre' ++ [Event.busFail a bytes e]))

/-- A move of a request ends in one of three ways: still in flight with nothing delivered; over with
exactly one completion, the last event; cancelled with none (R15, R19, R72, R122, R130). -/
abbrev State.completesOnce (s t : State) : Prop :=
  (t.busy = true ∧ responses (s.newEvents t) = [] ∧ t.failed = s.failed ∧
    t.cancelled = s.cancelled) ∨
  (t.busy = false ∧ t.cancelled = s.cancelled ∧
    ∃ r, responses (s.newEvents t) = [r] ∧ (s.newEvents t).getLast? = some (.done r) ∧
      (t.failed = true ↔ s.failed = true ∨ r ≠ .ok)) ∨
  (t.busy = false ∧ responses (s.newEvents t) = [] ∧ t.cancelled = true ∧
    t.failed = s.failed ∧ ∃ o, (s.newEvents t).getLast? = some (.cancelled o))

/-- What can come after a rising edge of enable: the whole hold and the falling edge, or its failure;
the cancellation of the hold; nothing while the hold is pending (R42, R74). -/
abbrev restOfPulse (hold : Millis) (post : List Event) : Prop :=
  post = [] ∨ post = [.cancelled (.delayMs hold)] ∨
  (∃ more, post = Event.delay hold :: Event.pin .en false :: more) ∨
  (∃ e, post = [.delay hold, .pinFail .en false e, .done (.err (.line .en) e)])

/-- The bytes an event shows on the bus, delivered or not. -/
def Event.busBytes : Event → List Byte
  | .bus _ bytes => bytes
  | .busFail _ bytes _ => bytes
  | .cancelled (.busWrite _ bytes) => bytes
  | .cancelled (.delayMs _) => []
  | .cancelled (.pinWrite _ _) => []
  | .pin _ _ => []
  | .pinFail _ _ _ => []
  | .delay _ => []
  | .done _ => []

/-- The same block under the other execution model (R79). -/
def State.withExec (s : State) (x : ExecModel) : State :=
  { s with cfg := { s.cfg with exec := x } }

/-- The same block with other shadows, ghost flags and past (R16, R18, R19). -/
def State.withPast (s : State) (l : Lines) (y : Shadow Byte) (failed cancelled : Bool)
    (trace : List Event) : State :=
  { s with lines := l, pexp := y, failed := failed, cancelled := cancelled, trace := trace }

/-- An answer with its native error relabelled (R122). -/
def Answer.relabel (f : NativeErr → NativeErr) : Answer → Answer
  | .fail e => .fail (f e)
  | .ok => .ok
  | .stall => .stall
  | .cancel => .cancel

/-- A completion with its native error relabelled (R122). -/
def Completion.relabel (f : NativeErr → NativeErr) : Completion → Completion
  | .err port e => .err port (f e)
  | .ok => .ok

/-- An event with its native error relabelled (R122). -/
def Event.relabel (f : NativeErr → NativeErr) : Event → Event
  | .pinFail p v e => .pinFail p v (f e)
  | .busFail a bytes e => .busFail a bytes (f e)
  | .done r => .done (r.relabel f)
  | .pin p v => .pin p v
  | .bus a bytes => .bus a bytes
  | .delay n => .delay n
  | .cancelled op => .cancelled op

/-- A state with every native error in it relabelled (R122). -/
def State.relabel (f : NativeErr → NativeErr) (s : State) : State :=
  { s with trace := s.trace.map (Event.relabel f), env := s.env.map (Answer.relabel f) }

/-- The owner's next move is no construction. -/
def State.keepsItsBlock (s : State) : Bool :=
  match s.owner.head? with
  | some (.construct _) => false
  | some (.request _) => true
  | some .teardown => true
  | none => true

/-- A byte with nothing but a nibble, the register-select bit and the backlight bit (R57). -/
def plainImage (c : Config) (x : Byte) : Bool :=
  x &&& ~~~(0xF0 ||| c.rsBit ||| c.blBit) == 0

/-- The bytes of a transaction: `[x, x | EN_BIT]` or `[x]` (R33, R57). -/
def transactionLegal (c : Config) : List Byte → Bool
  | [x] => plainImage c x
  | [x, y] => plainImage c x && y == x ||| c.enBit
  | _ => false

/-- The operations a block of the configuration may issue (R10, R36, R39, R74). -/
def Op.legal (c : Config) : Op → Bool
  | .pinWrite p _ => (modePins c.mode).contains p
  | .busWrite a bytes => c.mode == .i2c && a == c.addr && transactionLegal c bytes
  | .delayMs n => n == c.holdMs

/-- The Ports a failure of a mode can name (R123). -/
def portLegal (m : Mode) : Port → Bool
  | .line p => (modePins m).contains p
  | .i2c => m == .i2c

/-- The events a block of the configuration may emit (R8, R36, R39, R77, R78, R123). -/
def Event.legal (c : Config) : Event → Bool
  | .pin p v => Op.legal c (.pinWrite p v)
  | .bus a bytes => Op.legal c (.busWrite a bytes)
  | .delay n => Op.legal c (.delayMs n)
  | .pinFail p v _ => Op.legal c (.pinWrite p v)
  | .busFail a bytes _ => Op.legal c (.busWrite a bytes)
  | .done .ok => true
  | .done (.err port _) => portLegal c.mode port
  | .cancelled op => c.exec == .suspending && op.suspends && Op.legal c op

/-- The trace holds only events a block of the configuration may emit. -/
abbrev State.traceLegal (s : State) : Prop := s.trace.all (Event.legal s.cfg) = true

/-- The shadows and the ghost flags are what the trace says (R16 to R19, R121, R131). -/
abbrev State.recordsItsTrace (s : State) : Prop :=
  s.lines = s.trace.foldl linesAfter .unknown ∧ s.pexp = s.trace.foldl pexpAfter .x ∧
    s.failed = s.trace.any Event.isErr ∧ s.cancelled = s.trace.any Event.isCancelled

/-- A request in flight waits at a suspension point (R78, R80, R133). -/
abbrev State.waitsAtSuspension (s : State) : Prop :=
  s.busy = true → s.pendingOp.any Op.suspends = true

/-- In the parallel modes of an undisturbed run, an idle block rests with register-select and
enable not high, and a request in flight is a `WRITE` whose register-select is its flag (R85, R89,
R95, R99). -/
abbrev State.linesAtRest (s : State) : Prop :=
  s.cfg.mode ≠ .i2c → s.undisturbed →
    (s.busy = false → s.lines.rs ≠ .known true ∧ s.lines.en ≠ .known true) ∧
    (s.busy = true → s.op = .write ∧ s.lines.rs = .known s.isData)

/-- The expander byte rests with enable low and the backlight bit at the stored flag. -/
def expanderRests (c : Config) (bl : Bool) : Shadow Byte → Bool
  | .x => true
  | .known y => !hasMask y c.enBit && hasMask y c.blBit == bl

/-- In `I2C` mode of an undisturbed run, an idle block rests with the expander's enable low and
its backlight bit at `BL` (R110, R112). -/
abbrev State.expanderAtRest (s : State) : Prop :=
  s.cfg.mode = .i2c → s.undisturbed → s.busy = false → expanderRests s.cfg s.bl s.pexp = true

/-- What every step keeps about a block at rest or waiting. -/
abbrev State.atRest (s : State) : Prop :=
  s.cfg.wf = true ∧ s.waitsAtSuspension ∧ s.linesAtRest ∧ s.expanderAtRest

end Sys2Proof.Machine
end

