-- ==== Sys2Proof/Certificates/Slice0/Obligations.lean ====
section
/-! DEFINITION. The statements for the provers, in the order of OBLIGATIONS.json. -/

open Sys2Proof Sys2Proof.Machine

/-- 30_encoding.md R50, R58, R59: for every mode, the decoder reads an instruction from a word
exactly where the word is that instruction's and the mode has the form.  The layout of the word is
the spec's own choice (decision D2). -/
def Obligations.RequestWordsDecodeAndEncodeAgree : Prop :=
  ∀ (m : Mode) (w : ReqWord) (i : Instr),
    decode m w = .ok i ↔ i.requestMode = some m ∧ encode i = some w

/-- 95_test_vectors.md V10 and V12: each of the spec's request words, the reserved ones and their
accepted neighbour among them, decodes in each mode to that mode's form or is refused as reserved.
30_encoding.md R50: 0x400 is no word of ten bits. -/
def Obligations.VectorWordsDecode : Prop :=
  (decode .fourBit 0x000 = .ok (.write4 0x00 false) ∧
    decode .fourBit 0x0FF = .ok (.write4 0xFF false) ∧
    decode .fourBit 0x141 = .ok (.write4 0x41 true) ∧
    decode .fourBit 0x1FF = .ok (.write4 0xFF true) ∧
    decode .fourBit 0x200 = .ok (.setbl4 false) ∧
    decode .fourBit 0x300 = .ok (.setbl4 true)) ∧
  (decode .eightBit 0x000 = .ok (.write8 0x00 false) ∧
    decode .eightBit 0x0FF = .ok (.write8 0xFF false) ∧
    decode .eightBit 0x141 = .ok (.write8 0x41 true) ∧
    decode .eightBit 0x1FF = .ok (.write8 0xFF true) ∧
    decode .eightBit 0x200 = .ok (.setbl8 false) ∧
    decode .eightBit 0x300 = .ok (.setbl8 true)) ∧
  (decode .i2c 0x000 = .ok (.writeI2c 0x00 false) ∧
    decode .i2c 0x0FF = .ok (.writeI2c 0xFF false) ∧
    decode .i2c 0x141 = .ok (.writeI2c 0x41 true) ∧
    decode .i2c 0x1FF = .ok (.writeI2c 0xFF true) ∧
    decode .i2c 0x200 = .ok (.setblI2c false) ∧
    decode .i2c 0x300 = .ok (.setblI2c true)) ∧
  (∀ m : Mode, decode m 0x201 = .error .reservedByte ∧ decode m 0x3FF = .error .reservedByte ∧
    decodeNat m 0x400 = .error .notTenBits)

/-- 30_encoding.md R59: every `WRITE` word is a request; a `SETBL` word with a byte has no step.
That such a word is refused is the spec's decision D17. -/
def Obligations.ReservedRequestsHaveNoStep : Prop :=
  (∀ (m : Mode) (w : ReqWord), w.getLsbD 9 = false → ∃ i, decode m w = .ok i) ∧
  (∀ (s : State) (w : ReqWord) (rest : List OwnerMove), s.live = true → s.busy = false →
    s.owner = .request w :: rest → w.getLsbD 9 = true → w.extractLsb' 0 8 ≠ 0 →
    step s = .refused .reservedRequest)

/-- 30_encoding.md R51: the completion word has bit 4 set exactly for an error, its low four bits
are the Port's code in the order RS, EN, D0 to D7, I2C, and with the native error beside it the word
determines the completion.  The codes are the spec's own choice (decision D3). -/
def Obligations.CompletionWordsNameThePort : Prop :=
  (∀ r : Completion, r.word.getLsbD 4 = true ↔ r ≠ .ok) ∧
  Completion.ok.word = 0 ∧
  (∀ (e : NativeErr) (k : Nat) (port : Port),
    [Port.line .rs, .line .en, .line .d0, .line .d1, .line .d2, .line .d3, .line .d4, .line .d5,
      .line .d6, .line .d7, .i2c][k]? = some port →
    (Completion.err port e).word.toNat = 16 + k ∧ (Completion.err port e).native = some e) ∧
  (∀ r r' : Completion, r.word = r'.word → r.native = r'.native → r = r')

/-- 20_memory.md R31, R32 and 30_encoding.md R52, R55: for every byte, line k of the four gets bit
4 + k of the byte in the upper presentation and bit k in the lower; in eight-bit mode line i gets
bit i. The ascending order of the writes and the identity map are the spec's decisions D5, D7 (log
entry 12). -/
def Obligations.PresentationsPutEachBitOnItsLine : Prop :=
  (∀ (b : Byte) (k : Nat) (p : Pin), [Pin.d4, .d5, .d6, .d7][k]? = some p →
    (present4 (hi4 b))[k]? = some (.pinWrite p (b.getLsbD (4 + k))) ∧
    (present4 (lo4 b))[k]? = some (.pinWrite p (b.getLsbD k))) ∧
  (∀ (b : Byte) (k : Nat) (p : Pin),
    [Pin.d0, .d1, .d2, .d3, .d4, .d5, .d6, .d7][k]? = some p →
    (present8 b)[k]? = some (.pinWrite p (b.getLsbD k))) ∧
  (∀ b : Byte, (present4 (hi4 b)).length = 4 ∧ (present4 (lo4 b)).length = 4 ∧
    (present8 b).length = 8)

/-- 30_encoding.md R56: bit by bit, the upper nibble stays where it is, the lower nibble moves up
four places, and bits 3:0 of both are clear. -/
def Obligations.NibblesSitInUpperBitPosition : Prop :=
  (∀ (b : Byte) (i : Nat), i < 4 →
    (up b).getLsbD (4 + i) = b.getLsbD (4 + i) ∧ (dn b).getLsbD (4 + i) = b.getLsbD i ∧
    (up b).getLsbD i = false ∧ (dn b).getLsbD i = false) ∧
  up 0x41 = 0b0100_0000

/-- 30_encoding.md R57, R54: for legal masks and a nibble in bits 7:4, the byte carries the nibble,
the register-select bit exactly for data, the backlight bit exactly for `BL`, and enable clear;
the assert byte differs from it in the enable bit alone, which is set; different (nibble, flag,
backlight) give different bytes; with the default masks bit 1 is 0 and the assert byte is the byte
plus 4.  The last three are the spec's own derivations. -/
def Obligations.ExpanderByteComposition : Prop :=
  (∀ (c : Config) (n : Byte) (d bl : Bool), c.masksLegal = true → n &&& 0x0F = 0 →
    expanderByte c n d bl &&& 0xF0 = n ∧
    hasMask (expanderByte c n d bl) c.rsBit = d ∧
    hasMask (expanderByte c n d bl) c.blBit = bl ∧
    hasMask (expanderByte c n d bl) c.enBit = false ∧
    hasMask (assertByte c (expanderByte c n d bl)) c.enBit = true ∧
    assertByte c (expanderByte c n d bl) &&& ~~~c.enBit = expanderByte c n d bl) ∧
  (∀ (c : Config) (n n' : Byte) (d d' bl bl' : Bool), c.masksLegal = true →
    n &&& 0x0F = 0 → n' &&& 0x0F = 0 → expanderByte c n d bl = expanderByte c n' d' bl' →
    n = n' ∧ d = d' ∧ bl = bl') ∧
  (∀ (n : Byte) (d bl : Bool), n &&& 0x0F = 0 →
    (expanderByte .standard n d bl).getLsbD 1 = false ∧
    (assertByte .standard (expanderByte .standard n d bl)).getLsbD 1 = false ∧
    assertByte .standard (expanderByte .standard n d bl) = expanderByte .standard n d bl + 4)

/-- 30_encoding.md R65: reading the levels back from a byte is the inverse of composing it, and
with the default masks it reads D7 to D4, backlight, enable and register-select from bits 7 to 4, 3,
2 and 0.  The rule is the spec's own derivation from R53. -/
def Obligations.ReadingBackInvertsTheExpanderByte : Prop :=
  (∀ (c : Config) (b : Byte) (d bl : Bool), c.masksLegal = true →
    readBack c (expanderByte c (up b) d bl) = ⟨d, false, bl, hi4 b⟩ ∧
    readBack c (assertByte c (expanderByte c (up b) d bl)) = ⟨d, true, bl, hi4 b⟩ ∧
    readBack c (expanderByte c (dn b) d bl) = ⟨d, false, bl, lo4 b⟩ ∧
    readBack c (assertByte c (expanderByte c (dn b) d bl)) = ⟨d, true, bl, lo4 b⟩) ∧
  (∀ y : Byte, readBack .standard y =
    ⟨y.getLsbD 0, y.getLsbD 2, y.getLsbD 3, y.extractLsb' 4 4⟩)

/-- 41_fourbit.md R85, R88, R89; 40_contract.md R72: an accepted `WRITE.4` whose operations are all
answered `ok` emits exactly the events of the step table and `Done(Ok)`, leaves register-select and
enable low and the lower nibble on the data lines, and changes nothing else but the request's
latches; `SEQ` has no value when it is over (R23). That the operand latches keep the request's
values in the idle block, which the spec gives none (R12, R23), is the model's choice (log entry
2). The order of the four data writes is the spec's decision D5 (log entry 12). -/
def Obligations.Write4CompletesWithBothNibbles : Prop :=
  ∀ (b : Byte) (d : Bool) (s : State), s.ready .fourBit →
    s.answersOk (if d then 16 else 15) →
    ∃ q, exec (.write4 b d) s = .next { s with
      seq := q, op := .write, byte := b, isData := d
      lines := { s.lines with
        rs := .known false, en := .known false
        d4 := .known (b.getLsbD 0), d5 := .known (b.getLsbD 1)
        d6 := .known (b.getLsbD 2), d7 := .known (b.getLsbD 3) }
      trace := s.trace ++ write4Events s.cfg b d ++ [.done .ok]
      env := s.env.drop (if d then 16 else 15) }

/-- 41_fourbit.md R89, clause by clause.  With all answers `ok`: register-select is at the flag from
step 0 to step 14 and low at the end; there are exactly two rising edges, each followed by the hold
and the falling edge; at the first the data lines hold the upper nibble and register-select the
flag, at the second the lower nibble and the flag.  A failure of the D6 write of the upper nibble
aborts before enable is pulsed, is tagged D6, and nothing of the lower nibble follows. -/
def Obligations.Write4PropertiesOfTheContract : Prop :=
  (∀ (b : Byte) (d : Bool) (s t : State), s.ready .fourBit → s.answersOk 16 →
    exec (.write4 b d) s = .next t →
    let new := s.newEvents t
    (∀ k, 1 ≤ k → k ≤ 15 → ((new.take k).foldl linesAfter s.lines).rs = .known d) ∧
    t.lines.rs = .known false ∧
    pinPulses s.cfg.holdMs new = 2 ∧ new.count (.pin .en true) = 2 ∧
    (∀ pre post, new = pre ++ Event.pin .en true :: post →
      ((pre.foldl linesAfter s.lines).rs = .known d ∧
        (∃ n : BitVec 4, n = (if pre.count (.pin .en true) = 0 then hi4 b else lo4 b) ∧
          (pre.foldl linesAfter s.lines).d4 = .known (n.getLsbD 0) ∧
          (pre.foldl linesAfter s.lines).d5 = .known (n.getLsbD 1) ∧
          (pre.foldl linesAfter s.lines).d6 = .known (n.getLsbD 2) ∧
          (pre.foldl linesAfter s.lines).d7 = .known (n.getLsbD 3))) ∧
      ∃ more, post = Event.delay s.cfg.holdMs :: Event.pin .en false :: more)) ∧
  (∀ (b : Byte) (d : Bool) (s : State) (k : Nat) (v : Bool) (e : NativeErr)
    (rest : List Answer), s.ready .fourBit → k < 5 →
    (requestEvents s (.write4 b d))[k]? = some (.pin .d6 v) →
    s.env = List.replicate k Answer.ok ++ Answer.fail e :: rest →
    ∃ t, exec (.write4 b d) s = .next t ∧ responses (s.newEvents t) = [.err (.line .d6) e] ∧
      (∀ w, .pin .en w ∉ s.newEvents t) ∧ (s.newEvents t).length = k + 2)

/-- 42_eightbit.md R95, R98, R99; 40_contract.md R72: an accepted `WRITE.8` whose operations are
all answered `ok` emits exactly the events of the step table, one presentation and one pulse, and
`Done(Ok)`, leaves register-select and enable low and the byte on the data lines, and changes
nothing else but the request's latches; `SEQ` has no value when it is over (R23). That the operand
latches keep the request's values in the idle block, which the spec gives none (R12, R23), is the
model's choice (log entry 2). The map of bits to lines and the order of the writes are the spec's
decisions D7, D5 (log entry 12). -/
def Obligations.Write8CompletesWithTheByte : Prop :=
  ∀ (b : Byte) (d : Bool) (s : State), s.ready .eightBit →
    s.answersOk (if d then 13 else 12) →
    ∃ q, exec (.write8 b d) s = .next { s with
      seq := q, op := .write, byte := b, isData := d
      lines := {
        rs := .known false, en := .known false
        d0 := .known (b.getLsbD 0), d1 := .known (b.getLsbD 1)
        d2 := .known (b.getLsbD 2), d3 := .known (b.getLsbD 3)
        d4 := .known (b.getLsbD 4), d5 := .known (b.getLsbD 5)
        d6 := .known (b.getLsbD 6), d7 := .known (b.getLsbD 7) }
      trace := s.trace ++ write8Events s.cfg b d ++ [.done .ok]
      env := s.env.drop (if d then 13 else 12) }

/-- 43_i2c.md R106, R108, R111; 40_contract.md R72: an accepted `WRITE.I2C` whose operations are
all answered `ok` emits exactly the six events of the step table and `Done(Ok)`, leaves the
expander at the byte of the lower nibble, register-select as the flag was, and changes nothing else
but the request's latches; `SEQ` has no value when it is over (R23). That the operand latches keep
the request's values in the idle block, which the spec gives none (R12, R23), is the model's choice
(log entry 2). -/
def Obligations.WriteI2cCompletesWithBothNibbles : Prop :=
  ∀ (b : Byte) (d : Bool) (s : State), s.ready .i2c → s.answersOk 6 →
    ∃ q, exec (.writeI2c b d) s = .next { s with
      seq := q, op := .write, byte := b, isData := d
      pexp := .known (lowerImage s.cfg s.bl b d)
      trace := s.trace ++ writeI2cEvents s.cfg s.bl b d ++ [.done .ok]
      env := s.env.drop 6 }

/-- 43_i2c.md R110, clause by clause, for legal masks.  A `WRITE.I2C` answered `ok` throughout issues
exactly four bus writes, all to `ADDR`; the two assert transactions have the enable bit set in their
last byte and clear in their first, the two deassert bytes have it clear; every byte has the
backlight bit at `BL`, which construction sets on, a `SETBL.I2C` sets to its operand, and no other
request changes. -/
def Obligations.I2cTransactionsRaiseEnableInTheirLastByte : Prop :=
  (∀ (b : Byte) (d : Bool) (s t : State), s.ready .i2c → s.cfg.masksLegal = true →
    s.answersOk 6 → exec (.writeI2c b d) s = .next t →
    busWrites (s.newEvents t) = 4 ∧
    ∃ u u' v l l' m : Byte,
      (s.newEvents t).filter (fun e => e.busBytes ≠ []) =
        [.bus s.cfg.addr [u, u'], .bus s.cfg.addr [v], .bus s.cfg.addr [l, l'],
          .bus s.cfg.addr [m]] ∧
      hasMask u' s.cfg.enBit = true ∧ hasMask l' s.cfg.enBit = true ∧
      hasMask u s.cfg.enBit = false ∧ hasMask v s.cfg.enBit = false ∧
      hasMask l s.cfg.enBit = false ∧ hasMask m s.cfg.enBit = false ∧
      ∀ y ∈ [u, u', v, l, l', m], hasMask y s.cfg.blBit = s.bl) ∧
  (∀ c : Config, (State.construct c).bl = true) ∧
  (∀ (v : Bool) (s t : State), exec (.setblI2c v) s = .next t → t.bl = v) ∧
  (∀ (i : Instr) (m : Mode) (s t : State), i.requestMode = some m → exec i s = .next t →
    (∀ v, i ≠ .setblI2c v) → t.bl = s.bl)

/-- 43_i2c.md R107, R108; 10_state.md R12, R13: an accepted `SETBL.I2C` whose operations are all
answered `ok` stores the flag, sends the byte 0x00 as a command with the new backlight bit in every
bus byte, and changes nothing else but the request's latches; `SEQ` has no value when it is over
(R23). That the operand latches keep the request's values in the idle block, which the spec gives
none (R12, R23), is the model's choice (log entry 2). -/
def Obligations.SetblI2cStoresAndPushesTheFlag : Prop :=
  ∀ (v : Bool) (s : State), s.ready .i2c → s.answersOk 6 →
    let x : Byte := if v then s.cfg.blBit else 0
    ∃ q, exec (.setblI2c v) s = .next { s with
      bl := v, seq := q, op := .setbl, byte := 0, isData := false, state := v
      pexp := .known x
      trace := s.trace ++
        [.bus s.cfg.addr [x, x ||| s.cfg.enBit], .delay s.cfg.holdMs, .bus s.cfg.addr [x],
         .bus s.cfg.addr [x, x ||| s.cfg.enBit], .delay s.cfg.holdMs, .bus s.cfg.addr [x],
         .done .ok]
      env := s.env.drop 6 }

/-- 41_fourbit.md R87: `SETBL.4` completes `Ok` whatever the environment would answer, takes no
answer, and changes nothing but the latches of the request; `SEQ` has no value when it is over
(R23). That the operand latches keep the request's values in the idle block, which the spec gives
none (R12, R23), is the model's choice (log entry 2). -/
def Obligations.Setbl4OnlyCompletes : Prop :=
  (∀ v : Bool, decode .fourBit (if v then 0b1100000000 else 0b1000000000) = .ok (.setbl4 v)) ∧
  (∀ (v : Bool) (s : State), s.ready .fourBit →
    ∃ q, exec (.setbl4 v) s = .next { s with
      seq := q, op := .setbl, state := v, trace := s.trace ++ [.done .ok] })

/-- 42_eightbit.md R97: `SETBL.8` completes `Ok` whatever the environment would answer, takes no
answer, and changes nothing but the latches of the request; `SEQ` has no value when it is over
(R23). That the operand latches keep the request's values in the idle block, which the spec gives
none (R12, R23), is the model's choice (log entry 2). -/
def Obligations.Setbl8OnlyCompletes : Prop :=
  (∀ v : Bool, decode .eightBit (if v then 0b1100000000 else 0b1000000000) = .ok (.setbl8 v)) ∧
  (∀ (v : Bool) (s : State), s.ready .eightBit →
    ∃ q, exec (.setbl8 v) s = .next { s with
      seq := q, op := .setbl, state := v, trace := s.trace ++ [.done .ok] })

/-- 40_contract.md R74: inside a request of a parallel mode, `PULSE` raises enable, holds it for the
whole `HOLD_MS` in one delay, and lowers it, whatever the level of enable was; nothing else
changes. -/
def Obligations.PulseRaisesHoldsAndLowers : Prop :=
  ∀ s : State, s.inFlight [.fourBit, .eightBit] → s.answersOk 3 →
    exec .pulse s = .next { s with
      seq := s.seq + 3
      lines := { s.lines with en := .known false }
      trace := s.trace ++ [.pin .en true, .delay s.cfg.holdMs, .pin .en false]
      env := s.env.drop 3 }

/-- 43_i2c.md R105: inside a request of `I2C` mode, `WRNIB.I2C` sends the assert transaction, holds,
and sends the deassert transaction; `BL` is read and not written, and nothing else changes. -/
def Obligations.WrnibI2cSendsOneNibble : Prop :=
  ∀ (n : Byte) (d : Bool) (s : State), s.inFlight [.i2c] → s.answersOk 3 →
    let x : Byte := n ||| (if d then s.cfg.rsBit else 0) ||| (if s.bl then s.cfg.blBit else 0)
    exec (.wrnibI2c n d) s = .next { s with
      seq := s.seq + 3
      pexp := .known x
      trace := s.trace ++ [.bus s.cfg.addr [x, x ||| s.cfg.enBit], .delay s.cfg.holdMs,
        .bus s.cfg.addr [x]]
      env := s.env.drop 3 }

/-- 60_exceptions.md R121, R122, R123: a pin write of `WRITE.4` or `WRITE.8` that is answered
`fail(e)` at `SEQ` k leaves the first k rows of the step table done, that line unknown, the error
tagged with that line, the block idle and `FAILED` set; nothing else changes but the request's
latches. That the failed line becomes unknown is the spec's decision D11. Which data lines hold new
levels after a failed data write rests on the order of the writes and, for `WRITE.8`, on the map of
bits to lines, the spec's decisions D5 and D7 (log entry 12). That the operand latches keep the
request's values in the idle block, which the spec gives none (R12, R23), is the model's choice
(log entry 2). -/
def Obligations.ParallelWriteFailureAtEachStep : Prop :=
  ∀ (i : Instr) (m : Mode) (b : Byte) (d : Bool) (s : State) (k : Nat) (p : Pin) (v : Bool)
    (e : NativeErr) (rest : List Answer),
    (i = .write4 b d ∧ m = .fourBit ∨ i = .write8 b d ∧ m = .eightBit) → s.ready m →
    (requestEvents s i)[k]? = some (.pin p v) →
    s.env = List.replicate k Answer.ok ++ Answer.fail e :: rest →
    ∃ q, exec i s = .next { s with
      seq := q, op := .write, byte := b, isData := d, failed := true
      lines := (((requestEvents s i).take k).foldl linesAfter s.lines).set p .x
      trace := s.trace ++ (requestEvents s i).take k ++
        [.pinFail p v e, .done (.err (.line p) e)]
      env := rest }

/-- 60_exceptions.md R121, R122, R123, R129; 43_i2c.md R107: a bus write of `WRITE.I2C` or
`SETBL.I2C` that is answered `fail(e)` leaves the rows before it done, the expander's latch unknown,
the error tagged `I2C`, the block idle and `FAILED` set; `BL` keeps the value of the request if it
was a `SETBL.I2C`.  The unknown latch is the spec's decision D26. -/
def Obligations.I2cFailureAtEachBusWrite : Prop :=
  ∀ (i : Instr) (s : State) (k : Nat) (a : Addr) (bytes : List Byte) (e : NativeErr)
    (rest : List Answer),
    i.requestMode = some .i2c → s.ready .i2c →
    (requestEvents s i)[k]? = some (.bus a bytes) →
    s.env = List.replicate k Answer.ok ++ Answer.fail e :: rest →
    ∃ t, exec i s = .next t ∧ t.busy = false ∧ t.failed = true ∧ t.cancelled = s.cancelled ∧
      t.pexp = .x ∧ t.lines = s.lines ∧ t.env = rest ∧ t.cfg = s.cfg ∧
      t.bl = flagAfter s i ∧
      t.trace = s.trace ++ (requestEvents s i).take k ++
        [.busFail a bytes e, .done (.err .i2c e)]

/-- 60_exceptions.md R122: in what any request emits, from its acceptance or from a suspension point on,
a failure is followed by its `Done(Err)`, which delivers the line or bus that failed and the same native
error on `RESP`, and by nothing else; no `Done(Err)` comes otherwise; the block is then idle with
`FAILED` set, and `BL` is what the request stored at its acceptance and no more. -/
def Obligations.FirstFailureEndsTheRequest : Prop :=
  (∀ (i : Instr) (m : Mode) (s t : State), i.requestMode = some m → exec i s = .next t →
    t.bl = flagAfter s i ∧ s.failureIsLast t) ∧
  (∀ s t : State, s.busy = true → step s = .next t → t.bl = s.bl ∧ s.failureIsLast t)

/-- 10_state.md R15, R19; 40_contract.md R72; 60_exceptions.md R122, R130: a request, run from its
acceptance or from a suspension point on, ends in one of three ways.  It is still in flight and nothing
has been delivered; or it is over and exactly one completion has, as the last event, with `FAILED` set
exactly by an error; or it was cancelled and none is delivered. -/
def Obligations.OneCompletionPerRequest : Prop :=
  (∀ (i : Instr) (m : Mode) (s t : State), i.requestMode = some m → exec i s = .next t →
    s.completesOnce t) ∧
  (∀ s t : State, s.busy = true → step s = .next t → s.completesOnce t)

/-- 60_exceptions.md R130, R131: what a cancellation leaves of `WRITE.4` at either hold delay and
of `WRITE.8` at its hold delay: register-select at the flag, the presented nibble or byte on the
data lines, enable high, and no completion. The trace event, the missing completion and the idle
block are the spec's decision D15. Which bit each data line of `WRITE.8` shows is the spec's
decision D7 (log entry 12). That the operand latches keep the request's values in the idle block,
which the spec gives none (R12, R23), is the model's choice (log entry 2). -/
def Obligations.CancelledHoldLeavesEnableHigh : Prop :=
  (∀ (b : Byte) (d : Bool) (s : State) (k : Nat) (rest : List Answer), s.ready .fourBit →
    s.cfg.exec = .suspending → (k = 6 ∨ k = 13) →
    s.env = List.replicate k Answer.ok ++ Answer.cancel :: rest →
    ∃ q, exec (.write4 b d) s = .next { s with
      seq := q, op := .write, byte := b, isData := d, cancelled := true
      lines := { s.lines with
        rs := .known d, en := .known true
        d4 := .known (b.getLsbD (if k = 6 then 4 else 0))
        d5 := .known (b.getLsbD (if k = 6 then 5 else 1))
        d6 := .known (b.getLsbD (if k = 6 then 6 else 2))
        d7 := .known (b.getLsbD (if k = 6 then 7 else 3)) }
      trace := s.trace ++ (write4Events s.cfg b d).take k ++ [.cancelled (.delayMs s.cfg.holdMs)]
      env := rest }) ∧
  (∀ (b : Byte) (d : Bool) (s : State) (rest : List Answer), s.ready .eightBit →
    s.cfg.exec = .suspending → s.env = List.replicate 10 Answer.ok ++ Answer.cancel :: rest →
    ∃ q, exec (.write8 b d) s = .next { s with
      seq := q, op := .write, byte := b, isData := d, cancelled := true
      lines := {
        rs := .known d, en := .known true
        d0 := .known (b.getLsbD 0), d1 := .known (b.getLsbD 1)
        d2 := .known (b.getLsbD 2), d3 := .known (b.getLsbD 3)
        d4 := .known (b.getLsbD 4), d5 := .known (b.getLsbD 5)
        d6 := .known (b.getLsbD 6), d7 := .known (b.getLsbD 7) }
      trace := s.trace ++ (write8Events s.cfg b d).take 10 ++ [.cancelled (.delayMs s.cfg.holdMs)]
      env := rest })

/-- 60_exceptions.md R130, R131: what a cancellation leaves of `WRITE.I2C` and of `SETBL.I2C` at each
of their six operations: at a hold delay the expander shows the assert byte, at a bus write it is
unknown.  The unknown latch is the spec's decision D15. -/
def Obligations.CancelledI2cRequestAtEachStep : Prop :=
  ∀ (i : Instr) (s : State) (bl : Bool) (b : Byte) (d : Bool) (k : Nat) (o : Op)
    (rest : List Answer),
    (i = .writeI2c b d ∧ bl = s.bl ∨ i = .setblI2c bl ∧ b = 0 ∧ d = false) → s.ready .i2c →
    s.cfg.exec = .suspending → s.env = List.replicate k Answer.ok ++ Answer.cancel :: rest →
    (let u := upperImage s.cfg bl b d
     let l := lowerImage s.cfg bl b d
     [Op.busWrite s.cfg.addr [u, u ||| s.cfg.enBit], .delayMs s.cfg.holdMs,
      .busWrite s.cfg.addr [u], .busWrite s.cfg.addr [l, l ||| s.cfg.enBit],
      .delayMs s.cfg.holdMs, .busWrite s.cfg.addr [l]][k]? = some o) →
    ∃ t, exec i s = .next t ∧ t.busy = false ∧ t.cancelled = true ∧ t.failed = s.failed ∧
      t.bl = bl ∧ t.lines = s.lines ∧ t.env = rest ∧ t.cfg = s.cfg ∧
      t.pexp = (if k = 1 then .known (upperImage s.cfg bl b d ||| s.cfg.enBit)
        else if k = 4 then .known (lowerImage s.cfg bl b d ||| s.cfg.enBit) else .x) ∧
      t.trace = s.trace ++ (writeI2cEvents s.cfg bl b d).take k ++ [.cancelled o]

/-- 40_contract.md R77, R78; 60_exceptions.md R120, R130: what the environment cannot do to a request
has no step: cancel at a pin write, leave a pin write unanswered, cancel under `Blocking`, fail a
delay.  That there is no `CANCEL` port under `Blocking` is the spec's decision D15. -/
def Obligations.ImpossibleAnswersHaveNoStep : Prop :=
  ∀ (i : Instr) (m : Mode) (s : State) (k : Nat) (ev : Event) (a : Answer) (rest : List Answer),
    i.requestMode = some m → s.ready m → (requestEvents s i)[k]? = some ev →
    s.env = List.replicate k Answer.ok ++ a :: rest →
    (∀ p v, ev = .pin p v → a = .cancel → exec i s = .refused .cancelAtPinWrite) ∧
    (∀ p v, ev = .pin p v → a = .stall → exec i s = .refused .pinWriteCannotStall) ∧
    (ev.suspends = true → a = .cancel → s.cfg.exec = .blocking →
      exec i s = .refused .cancelUnderBlocking) ∧
    (∀ n e, ev = .delay n → a = .fail e → exec i s = .refused .delayCannotFail)

/-- 60_exceptions.md R133; 40_contract.md R80: a request whose delay or bus write at `SEQ` k is never
answered stays in flight for ever, with no event after those of its first k steps, and neither failed
nor cancelled. -/
def Obligations.UnansweredRequestHangs : Prop :=
  ∀ (i : Instr) (m : Mode) (s : State) (k : Nat) (ev : Event) (rest : List Answer),
    i.requestMode = some m → s.ready m → (requestEvents s i)[k]? = some ev →
    ev.suspends = true → s.env = List.replicate k Answer.ok ++ Answer.stall :: rest →
    ∃ t, exec i s = .next t ∧ t.busy = true ∧ t.seq = k ∧ t.failed = s.failed ∧
      t.cancelled = s.cancelled ∧ t.trace = s.trace ++ (requestEvents s i).take k ∧
      ∀ n, Sys2Proof.core.run n t = .next t

/-- 10_state.md R14; 40_contract.md R78, R80: a request that waits at a suspension point and is
answered later goes on exactly as if the answer had been there at once, whatever the answer and
whatever follows. -/
def Obligations.LateAnswerChangesNothing : Prop :=
  ∀ (i : Instr) (m : Mode) (s t : State) (k : Nat) (a : Answer) (rest rest' : List Answer),
    i.requestMode = some m → s.ready m → s.env = List.replicate k Answer.ok ++ Answer.stall :: rest →
    exec i s = .next t → t.busy = true →
    step { t with env := a :: rest' } =
      exec i { s with env := List.replicate k Answer.ok ++ a :: rest' }

/-- 40_contract.md R79: for the same state, requests and answers, and with no cancellation, a step
under `Blocking` leaves what the same step under `Suspending` leaves, and has no step where it has
none. -/
def Obligations.ExecutionModelsAgree : Prop :=
  ∀ s : State, s.keepsItsBlock = true → .cancel ∉ s.env →
    (∀ t : State, step (s.withExec .blocking) = .next (t.withExec .blocking) ↔
      step (s.withExec .suspending) = .next (t.withExec .suspending)) ∧
    (∀ r, step (s.withExec .blocking) = .refused r ↔ step (s.withExec .suspending) = .refused r)

/-- 10_state.md R13; 40_contract.md R76: no step writes `BL` but an accepted `SETBL.I2C`, with its
operand, and a construction, with on. -/
def Obligations.OnlySetblAndConstructionWriteBacklight : Prop :=
  ∀ s t : State, step s = .next t → t.bl ≠ s.bl →
    s.busy = false ∧
    ((∃ w rest v, s.owner = .request w :: rest ∧ decode s.cfg.mode w = .ok (.setblI2c v) ∧
        t.bl = v) ∨
      (∃ a rest, s.owner = .construct a :: rest ∧ t.bl = true))

/-- 43_i2c.md R112: in every step of a block in `I2C` mode, every byte of every bus write, those of a
`SETBL.I2C` among them, has the backlight bit at the flag then stored.  A `SETBL.I2C` stores its
operand, and a step that takes no `SETBL` request keeps the flag, a `WRITE.I2C` among them.  A flag
set off and then on leaves the bit on in every byte of the next write. -/
def Obligations.EveryBusByteCarriesTheStoredFlag : Prop :=
  (∀ (s t : State) (ev : Event) (y : Byte), s.keepsItsBlock = true → s.cfg.mode = .i2c →
    s.cfg.masksLegal = true → step s = .next t → ev ∈ s.newEvents t → y ∈ ev.busBytes →
    hasMask y s.cfg.blBit = t.bl) ∧
  (∀ (v : Bool) (s t : State), exec (.setblI2c v) s = .next t → t.bl = v) ∧
  (∀ s t : State, s.keepsItsBlock = true →
    (∀ w rest, s.owner = .request w :: rest → w.getLsbD 9 = false) → step s = .next t →
    t.bl = s.bl) ∧
  (∀ (b : Byte) (d : Bool) (s t : State), exec (.writeI2c b d) s = .next t → t.bl = s.bl) ∧
  (∀ (b : Byte) (d : Bool) (s t u w : State) (ev : Event) (y : Byte),
    s.cfg.masksLegal = true → exec (.setblI2c false) s = .next t →
    exec (.setblI2c true) t = .next u → exec (.writeI2c b d) u = .next w →
    ev ∈ u.newEvents w → y ∈ ev.busBytes → hasMask y s.cfg.blBit = true)

/-- 20_memory.md R38: the same backlight request twice, all of it answered `ok`, produces the same
bytes on the bus, whatever the flag was before. -/
def Obligations.SetblIsIdempotentOnTheWire : Prop :=
  ∀ (v : Bool) (s t u : State), s.ready .i2c → s.answersOk 12 →
    exec (.setblI2c v) s = .next t → exec (.setblI2c v) t = .next u →
    s.newEvents t = t.newEvents u ∧ u.bl = t.bl ∧ u.pexp = t.pexp

/-- 60_exceptions.md R122, R124: the native error is passed through and never inspected.  Relabelling
the errors the environment answers with, by any function, relabels them in the trace and changes
nothing else of any step. -/
def Obligations.NativeErrorsAreNeverInspected : Prop :=
  ∀ (f : NativeErr → NativeErr) (s : State),
    (∀ t, step s = .next t → step (s.relabel f) = .next (t.relabel f)) ∧
    (∀ r, step s = .refused r → step (s.relabel f) = .refused r)

/-- 10_state.md R16, R18, R19; 43_i2c.md R113; 60_exceptions.md R128: no step reads a shadow, a ghost
flag or the trace.  With any other shadows, flags and past, the same step leaves the same block, takes
the same inputs and emits the same events. -/
def Obligations.ShadowsAndGhostFlagsAreNeverRead : Prop :=
  ∀ (s t : State) (l : Lines) (y : Shadow Byte) (f c : Bool) (past : List Event),
    s.keepsItsBlock = true → step s = .next t →
    ∃ l' y' f' c', step (s.withPast l y f c past) =
      .next (t.withPast l' y' f' c' (past ++ s.newEvents t))

/-- 10_state.md R16 to R19; 60_exceptions.md R121, R122, R130, R131: every step keeps the shadows and
the ghost flags what the trace says they are. -/
def Obligations.StepKeepsTheRecordOfTheTrace : Prop :=
  ∀ s t : State, s.recordsItsTrace → step s = .next t → t.recordsItsTrace

/-- 20_memory.md R36, R39; 30_encoding.md R54, R57; 60_exceptions.md R120, R123; 40_contract.md R77,
R78: every step keeps the trace within what a block of the configuration may emit: its own lines, or
two-byte and one-byte transactions of the right shape to `ADDR`; delays of `HOLD_MS`; failures tagged
with Ports of the mode; cancellations under `Suspending` at suspension points alone. -/
def Obligations.StepKeepsTheTraceLegal : Prop :=
  ∀ s t : State, s.traceLegal → step s = .next t → t.traceLegal

/-- 40_contract.md R78; 41_fourbit.md R85, R89; 42_eightbit.md R99; 43_i2c.md R110, R112: every step
keeps this.  A request found in flight waits at a delay or a bus write; while nothing has failed or
been cancelled, an idle parallel block rests with register-select and enable not high, an idle block
in `I2C` mode with the expander's enable low and its backlight bit at the stored flag. -/
def Obligations.StepKeepsTheBlockAtRest : Prop :=
  ∀ s t : State, s.atRest → step s = .next t → t.atRest

/-- 10_state.md R23; 70_reset_and_hazards.md R145: a block just constructed with legal parameters, and
the state after reset, meet the three invariants. -/
def Obligations.ConstructedBlocksMeetTheInvariants : Prop :=
  (∀ c : Config, c.wf = true → (State.construct c).recordsItsTrace ∧
    (State.construct c).traceLegal ∧ (State.construct c).atRest) ∧
  State.reset.recordsItsTrace ∧ State.reset.traceLegal ∧ State.reset.atRest

/-- 70_reset_and_hazards.md R145; 10_state.md R23: a construction whose address is 7 bits and whose
masks are legal leaves an idle block with those parameters, `BL` on, every line and the expander
unknown, both ghost flags 0, and nothing emitted.  The unknown levels are the spec's decision D12. -/
def Obligations.ConstructionLeavesTheResetState : Prop :=
  ∀ (s : State) (a : ConstructArgs) (rest : List OwnerMove), s.live = false → s.busy = false →
    s.owner = .construct a :: rest → a.config.wf = true → (a.mode = .i2c → a.addr ≤ 0x7F) →
    ∃ t, step s = .next t ∧ t.live = true ∧ t.busy = false ∧ t.bl = true ∧
      (∀ p, t.lines.get p = .x) ∧ t.pexp = .x ∧ t.failed = false ∧ t.cancelled = false ∧
      t.trace = [] ∧ t.owner = rest ∧ t.env = s.env ∧ t.cfg.mode = a.mode ∧
      t.cfg.exec = a.exec ∧ t.cfg.holdMs = a.holdMs ∧ t.cfg.rsBit = a.rsBit ∧
      t.cfg.enBit = a.enBit ∧ t.cfg.blBit = a.blBit ∧
      (a.mode = .i2c → t.cfg.addr.toNat = a.addr.toNat)

/-- 70_reset_and_hazards.md R146: a construction in `I2C` mode with an address above 0x7F is refused:
no block is constructed.  That it is refused is the spec's decision D10. -/
def Obligations.AddressesAboveSevenBitsAreRefused : Prop :=
  ∀ (s : State) (a : ConstructArgs) (rest : List OwnerMove), s.live = false → s.busy = false →
    s.owner = .construct a :: rest → a.mode = .i2c → 0x80 ≤ a.addr →
    step s = .refused .addressNotSevenBits

/-- 70_reset_and_hazards.md R147: teardown of an idle block emits nothing, keeps the levels of the
lines and of the expander, and ends the block: no request is accepted afterwards.  That it emits
nothing is the spec's decision D18. -/
def Obligations.TeardownEndsTheBlock : Prop :=
  ∀ (s : State) (rest : List OwnerMove), s.live = true → s.busy = false →
    s.owner = .teardown :: rest →
    ∃ t, step s = .next t ∧ t.live = false ∧ t.busy = false ∧ t.lines = s.lines ∧
      t.pexp = s.pexp ∧ t.trace = s.trace ∧ t.env = s.env ∧ t.owner = rest ∧
      ∀ w more, step { t with owner := .request w :: more } = .refused .noBlock

/-- 40_contract.md R70, R71; 30_encoding.md R58: where the owner's next move is a request whose word
decodes in the block's mode, a step is the execution of the decoded instruction on the state without
that move. -/
def Obligations.StepRunsTheDecodedRequest : Prop :=
  ∀ (s : State) (w : ReqWord) (rest : List OwnerMove) (i : Instr), s.live = true →
    s.busy = false → s.owner = .request w :: rest → decode s.cfg.mode w = .ok i →
    step s = exec i { s with owner := rest }

/-- 60_exceptions.md R125; 40_contract.md R71: an idle block without a request does nothing. -/
def Obligations.IdleBlockWaitsForTheOwner : Prop :=
  ∀ s : State, s.busy = false → s.owner = [] → step s = .next s

/-- 40_contract.md R71; 20_memory.md R41: while a request is in flight no other is accepted: a step
leaves the owner's moves alone and does the same whatever they are, and no request form has a step.
That a second request waits is the spec's decision D13. -/
def Obligations.BusyBlockAcceptsNothing : Prop :=
  ∀ s : State, s.busy = true →
    (∀ t, step s = .next t → t.owner = s.owner ∧
      ∀ o, step { s with owner := o } = .next { t with owner := o }) ∧
    (∀ i m, s.live = true → s.cfg.mode = m → i.requestMode = some m →
      exec i s = .refused .requestWhileBusy)

/-- 30_encoding.md R58, R63; 43_i2c.md R105: a form that the block's mode does not have, request or
internal, has no step, idle or in flight, and neither has an internal form while no request is in
flight.  That the internal forms run as instructions of their own at all is the model's choice (log
entry 8). -/
def Obligations.FormsRunOnlyWhereTheyExist : Prop :=
  (∀ (i : Instr) (m : Mode) (s : State), s.live = true → i.requestMode = some m →
    s.cfg.mode ≠ m → exec i s = .refused .formOfAnotherMode) ∧
  (∀ s : State, s.live = true → s.cfg.mode = .i2c →
    exec .pulse s = .refused .formOfAnotherMode) ∧
  (∀ (n : Byte) (d : Bool) (s : State), s.live = true → s.cfg.mode ≠ .i2c →
    exec (.wrnibI2c n d) s = .refused .formOfAnotherMode) ∧
  (∀ s : State, s.live = true → s.busy = false → s.cfg.mode ≠ .i2c →
    exec .pulse s = .refused .internalFormOutsideRequest) ∧
  (∀ (n : Byte) (d : Bool) (s : State), s.live = true → s.busy = false → s.cfg.mode = .i2c →
    exec (.wrnibI2c n d) s = .refused .internalFormOutsideRequest)

/-- 10_state.md R11: no step but a construction changes a parameter of the block. -/
def Obligations.ParametersNeverChange : Prop :=
  ∀ s t : State, s.keepsItsBlock = true → step s = .next t → t.cfg = s.cfg

/-- 20_memory.md R40; 10_state.md R19, R22: the frame of every instruction.  Whatever it ends in, it
keeps the parameters, the owner's moves and the life of the block, takes answers from the front of the
script only, appends to the trace only, and clears no ghost flag. -/
def Obligations.EveryInstructionKeepsTheRest : Prop :=
  ∀ (i : Instr) (s t : State), exec i s = .next t →
    t.cfg = s.cfg ∧ t.live = s.live ∧ t.owner = s.owner ∧
    (∃ n, t.env = s.env.drop n) ∧ t.trace = s.trace ++ s.newEvents t ∧
    (s.failed = true → t.failed = true) ∧ (s.cancelled = true → t.cancelled = true)

/-- 10_state.md R12, R13, R16; 41_fourbit.md R85, R87; 42_eightbit.md R95, R97; 40_contract.md R74:
the frame of the parallel forms, whatever they end in. No backlight flag and no expander; `WRITE.4`
leaves D0 to D3 alone, `PULSE` every line but enable, the `SETBL` forms every line, the ghost flags
and the script; each form writes its own operand latches only. That the operand latches keep the
request's values in the idle block, which the spec gives none (R12, R23), is the model's choice
(log entry 2). That a block has fields of elements its mode lacks (backlight flag, expander, D0 to
D3 in four-bit mode), and keeps them, is the model's choice (log entry 7). -/
def Obligations.ParallelFormsFrame : Prop :=
  (∀ (b : Byte) (d : Bool) (s t : State), exec (.write4 b d) s = .next t →
    t.bl = s.bl ∧ t.pexp = s.pexp ∧ t.state = s.state ∧ t.op = .write ∧ t.byte = b ∧
    t.isData = d ∧ ∀ p ∈ [Pin.d0, .d1, .d2, .d3], t.lines.get p = s.lines.get p) ∧
  (∀ (b : Byte) (d : Bool) (s t : State), exec (.write8 b d) s = .next t →
    t.bl = s.bl ∧ t.pexp = s.pexp ∧ t.state = s.state ∧ t.op = .write ∧ t.byte = b ∧
    t.isData = d) ∧
  (∀ (v : Bool) (i : Instr) (s t : State), (i = .setbl4 v ∨ i = .setbl8 v) →
    exec i s = .next t →
    t.bl = s.bl ∧ t.pexp = s.pexp ∧ t.lines = s.lines ∧ t.failed = s.failed ∧
    t.cancelled = s.cancelled ∧ t.env = s.env ∧ t.byte = s.byte ∧ t.isData = s.isData ∧
    t.op = .setbl ∧ t.state = v) ∧
  (∀ s t : State, exec .pulse s = .next t →
    t.bl = s.bl ∧ t.pexp = s.pexp ∧ t.op = s.op ∧ t.byte = s.byte ∧ t.isData = s.isData ∧
    t.state = s.state ∧ ∀ p, p ≠ .en → t.lines.get p = s.lines.get p)

/-- 10_state.md R10, R12, R13; 43_i2c.md R105 to R107: the frame of the `I2C` forms, whatever they
end in. No line is driven; `BL` is written by `SETBL.I2C` alone, with its operand; each form writes
its own operand latches only, `WRNIB.I2C` none. That the operand latches keep the request's values
in the idle block, which the spec gives none (R12, R23), is the model's choice (log entry 2). That
an `I2C` block has line shadows, and keeps them, is the model's choice (log entry 7). -/
def Obligations.I2cFormsFrame : Prop :=
  (∀ (b : Byte) (d : Bool) (s t : State), exec (.writeI2c b d) s = .next t →
    t.lines = s.lines ∧ t.bl = s.bl ∧ t.state = s.state ∧ t.op = .write ∧ t.byte = b ∧
    t.isData = d) ∧
  (∀ (v : Bool) (s t : State), exec (.setblI2c v) s = .next t →
    t.lines = s.lines ∧ t.bl = v ∧ t.state = v ∧ t.op = .setbl ∧ t.byte = 0 ∧
    t.isData = false) ∧
  (∀ (n : Byte) (d : Bool) (s t : State), exec (.wrnibI2c n d) s = .next t →
    t.lines = s.lines ∧ t.bl = s.bl ∧ t.op = s.op ∧ t.byte = s.byte ∧ t.isData = s.isData ∧
    t.state = s.state)

/-- 20_memory.md R42; 40_contract.md R74; 70_reset_and_hazards.md R153: in what any parallel form
emits, whatever it ends in, a rising edge of enable is followed at once by the whole hold and then by
the falling edge or its failure, or by the cancellation of the hold, or by nothing while the hold is
pending: no data line and no register-select is written in between.  A request found waiting is in
that hold: what it emits when it goes on begins with the rest of the pulse, and the same holds of the
rising edges after it. -/
def Obligations.NothingIsWrittenUnderAHighEnable : Prop :=
  (∀ (i : Instr) (s t : State) (pre post : List Event), s.cfg.mode ≠ .i2c →
    exec i s = .next t → s.newEvents t = pre ++ Event.pin .en true :: post →
    restOfPulse s.cfg.holdMs post) ∧
  (∀ s t : State, s.cfg.mode ≠ .i2c → s.busy = true → s.waitsAtSuspension → step s = .next t →
    restOfPulse s.cfg.holdMs (s.newEvents t) ∧
    ∀ pre post, s.newEvents t = pre ++ Event.pin .en true :: post →
      restOfPulse s.cfg.holdMs post)

/-- 41_fourbit.md R90; 60_exceptions.md R137: from a block whose enable is not high, a `WRITE.4`
that is answered `ok` throughout adds exactly two entries to the latch trace: the upper nibble and
then the lower, each with register-select at the flag. The latch trace is the spec's decision D25;
that the four data lines are D4 to D7 is its decision D4 (log entry 12). -/
def Obligations.Write4LatchesBothNibbles : Prop :=
  ∀ (b : Byte) (d : Bool) (s t : State), s.ready .fourBit → s.recordsItsTrace →
    s.lines.en ≠ .known true → s.answersOk 16 → exec (.write4 b d) s = .next t →
    latchTrace s.cfg t.trace = latchTrace s.cfg s.trace ++
      [⟨.known d, [.known (b.getLsbD 7), .known (b.getLsbD 6), .known (b.getLsbD 5),
          .known (b.getLsbD 4)]⟩,
       ⟨.known d, [.known (b.getLsbD 3), .known (b.getLsbD 2), .known (b.getLsbD 1),
          .known (b.getLsbD 0)]⟩]

/-- 42_eightbit.md R99; 60_exceptions.md R137: from a block whose enable is not high, a `WRITE.8`
that is answered `ok` throughout adds exactly one entry to the latch trace: the whole byte, with
register-select at the flag. The latch trace is the spec's decision D25; which bit each data line
shows is the spec's decision D7 (log entry 12). -/
def Obligations.Write8LatchesTheByte : Prop :=
  ∀ (b : Byte) (d : Bool) (s t : State), s.ready .eightBit → s.recordsItsTrace →
    s.lines.en ≠ .known true → s.answersOk 13 → exec (.write8 b d) s = .next t →
    latchTrace s.cfg t.trace = latchTrace s.cfg s.trace ++
      [⟨.known d, [.known (b.getLsbD 7), .known (b.getLsbD 6), .known (b.getLsbD 5),
          .known (b.getLsbD 4), .known (b.getLsbD 3), .known (b.getLsbD 2),
          .known (b.getLsbD 1), .known (b.getLsbD 0)]⟩]

/-- 43_i2c.md R109, R111; 60_exceptions.md R137: from an expander whose enable is not high, a
`WRITE.I2C` adds exactly the two nibbles of its byte with register-select at its flag, and a `SETBL.I2C`
two nibbles 0 with register-select low: no latch sees the register-select of an
earlier request.  The latch trace is the spec's decision D25. -/
def Obligations.I2cRequestsLatchTheirNibbles : Prop :=
  ∀ (i : Instr) (b : Byte) (d : Bool) (s t : State), s.ready .i2c → s.cfg.masksLegal = true →
    s.recordsItsTrace → (∀ y, s.pexp = .known y → hasMask y s.cfg.enBit = false) →
    s.answersOk 6 → (i = .writeI2c b d ∨ ∃ v, i = .setblI2c v ∧ b = 0 ∧ d = false) →
    exec i s = .next t →
    latchTrace s.cfg t.trace = latchTrace s.cfg s.trace ++
      [⟨.known d, [.known (b.getLsbD 7), .known (b.getLsbD 6), .known (b.getLsbD 5),
          .known (b.getLsbD 4)]⟩,
       ⟨.known d, [.known (b.getLsbD 3), .known (b.getLsbD 2), .known (b.getLsbD 1),
          .known (b.getLsbD 0)]⟩]

/-- 20_memory.md R36; 70_reset_and_hazards.md R160: how many pin writes, bus writes, bus bytes
and delays each request makes when nothing fails, how many enable pulses each parallel request makes,
and for how long the holds last.  The counts are the spec's own derivation from the step tables. -/
def Obligations.OperationCountsOfEachRequest : Prop :=
  ∀ (i : Instr) (m : Mode) (s t : State), i.requestMode = some m → s.answersOk 16 →
    exec i s = .next t →
    let new := s.newEvents t
    match i with
    | .write4 _ d => pinWrites new = (if d then 14 else 13) ∧ busWrites new = 0 ∧
        busBytes new = 0 ∧ delays new = 2 ∧ pinPulses s.cfg.holdMs new = 2 ∧
        heldMs new = 2 * s.cfg.holdMs.toNat
    | .write8 _ d => pinWrites new = (if d then 12 else 11) ∧ busWrites new = 0 ∧
        busBytes new = 0 ∧ delays new = 1 ∧ pinPulses s.cfg.holdMs new = 1 ∧
        heldMs new = s.cfg.holdMs.toNat
    | .setbl4 _ | .setbl8 _ => pinWrites new = 0 ∧ busWrites new = 0 ∧ busBytes new = 0 ∧
        delays new = 0 ∧ pinPulses s.cfg.holdMs new = 0 ∧ heldMs new = 0
    | .writeI2c _ _ | .setblI2c _ => pinWrites new = 0 ∧ busWrites new = 4 ∧ busBytes new = 6 ∧
        delays new = 2 ∧ heldMs new = 2 * s.cfg.holdMs.toNat
    | .wrnibI2c _ _ | .pulse => True

/-- 00_scope.md R5, 70_reset_and_hazards.md R148: a construction on resources that a block owns has no
step; neither has one in `I2C` mode, with an address of 7 bits, whose masks are not three different
single bits of the low nibble.  That such masks are refused is read from R5, which states the conditions
and no effect of breaking them (log entry 10). -/
def Obligations.ConstructionsOnOwnedResourcesOrBadMasksAreRefused : Prop :=
  ∀ (s : State) (a : ConstructArgs) (rest : List OwnerMove), s.busy = false →
    s.owner = .construct a :: rest →
    (s.live = true → step s = .refused .resourcesOwned) ∧
    (s.live = false → a.mode = .i2c → a.addr ≤ 0x7F →
      ((∃ x ∈ [a.rsBit, a.enBit, a.blBit], x ∉ [0x01, 0x02, 0x04, 0x08]) ∨
        a.rsBit = a.enBit ∨ a.rsBit = a.blBit ∨ a.enBit = a.blBit) →
      step s = .refused .masksNotLegal)

/-- 70_reset_and_hazards.md R151, R147: a run has ended when its last request is over and nothing is in
flight, be a teardown or the construction of the next run still to do.  It stays ended and emits nothing
more, every level and ghost flag as it was, until a construction begins a new run. -/
def Obligations.EndedRunStaysEnded : Prop :=
  ∀ s t : State, s.runEnded → step s = .next t →
    (t.runEnded ∧ t.trace = s.trace ∧ t.lines = s.lines ∧ t.pexp = s.pexp ∧
      t.failed = s.failed ∧ t.cancelled = s.cancelled ∧ t.env = s.env) ∨
    (∃ a rest, s.owner = .construct a :: rest ∧ s.live = false ∧ t.live = true ∧
      t.trace = [] ∧ t.owner = rest)
end

