-- ==== Sys2Proof/Laws/Flags.lean ====
section
/-! SUPPORT. What the control bits of an expander byte are, for any legal masks. -/

namespace Sys2Proof.Machine

/-- A legal mask is one of the four low bits (R5). -/
theorem legalMask_cases {m : Byte} (h : Config.legalMask m = true) :
    m = 1 ∨ m = 2 ∨ m = 4 ∨ m = 8 := by
  simp [Config.legalMask] at h
  tauto

/-- Three legal masks, pairwise different: every case there is (R5). -/
theorem masksLegal_cases {c : Config} (h : c.masksLegal = true) :
    (c.rsBit = 1 ∨ c.rsBit = 2 ∨ c.rsBit = 4 ∨ c.rsBit = 8) ∧
    (c.enBit = 1 ∨ c.enBit = 2 ∨ c.enBit = 4 ∨ c.enBit = 8) ∧
    (c.blBit = 1 ∨ c.blBit = 2 ∨ c.blBit = 4 ∨ c.blBit = 8) ∧
    c.rsBit ≠ c.enBit ∧ c.rsBit ≠ c.blBit ∧ c.enBit ≠ c.blBit := by
  simp [Config.masksLegal] at h
  exact ⟨legalMask_cases (by tauto), legalMask_cases (by tauto), legalMask_cases (by tauto),
    by tauto, by tauto, by tauto⟩

/-- Both nibbles of an I2C byte lie in bits 7:4 (R56). -/
theorem low_bits_up (b : Byte) : up b &&& 0x0F = 0 := by revert b; decide

theorem low_bits_dn (b : Byte) : dn b &&& 0x0F = 0 := by revert b; decide

/-- The control bits of an expander byte and of its assert byte (R57). -/
theorem control_bits {c : Config} (h : c.masksLegal = true) (n : Byte) (d bl : Bool)
    (hn : n &&& 0x0F = 0) :
    hasMask (expanderByte c n d bl) c.rsBit = d ∧
    hasMask (expanderByte c n d bl) c.enBit = false ∧
    hasMask (expanderByte c n d bl) c.blBit = bl ∧
    hasMask (assertByte c (expanderByte c n d bl)) c.rsBit = d ∧
    hasMask (assertByte c (expanderByte c n d bl)) c.enBit = true ∧
    hasMask (assertByte c (expanderByte c n d bl)) c.blBit = bl := by
  obtain ⟨h1, h2, h3, h4⟩ := masksLegal_cases h
  revert h1 h2 h3 h4
  unfold expanderByte assertByte
  generalize c.rsBit = r
  generalize c.enBit = e
  generalize c.blBit = l
  rintro (rfl | rfl | rfl | rfl) (rfl | rfl | rfl | rfl) (rfl | rfl | rfl | rfl) h4 <;>
    first | (exfalso; revert h4; decide) | (revert n d bl; decide)

/-- The nibble of an expander byte and of its assert byte is the nibble it was made from (R57,
R60). -/
theorem nibble_bits {c : Config} (h : c.masksLegal = true) (n : Byte) (d bl : Bool) {i : Nat}
    (hi : 4 ≤ i) (hi' : i < 8) :
    (expanderByte c n d bl).getLsbD i = n.getLsbD i ∧
    (assertByte c (expanderByte c n d bl)).getLsbD i = n.getLsbD i := by
  obtain ⟨h1, h2, h3, -⟩ := masksLegal_cases h
  have zero : ∀ m : Byte, (m = 1 ∨ m = 2 ∨ m = 4 ∨ m = 8) → m.getLsbD i = false := by
    rintro m (rfl | rfl | rfl | rfl) <;> interval_cases i <;> rfl
  have hr := zero _ h1
  have he := zero _ h2
  have hl := zero _ h3
  cases d <;> cases bl <;>
    simp [expanderByte, assertByte, maskIf, BitVec.getLsbD_or, hr, he, hl]

end Sys2Proof.Machine
end

