-- ==== Sys2Proof/Laws/Latch.lean ====
section
/-! SUPPORT. The watched levels of a latch trace are the shadows the trace leaves. -/

namespace Sys2Proof.Machine

theorem watch_lines (c : Config) (w : Watch) (e : Event) :
    (watch c w e).lines = linesAfter w.lines e := by
  cases e with
  | bus a bytes =>
    simp only [watch, linesAfter]
    induction bytes generalizing w with
    | nil => rfl
    | cons y ys ih =>
      rw [List.foldl_cons, ih]
      unfold watchByte
      cases w.pexp <;> rfl
  | cancelled o => cases o <;> rfl
  | _ => rfl

theorem watch_pexp (c : Config) (w : Watch) (e : Event) :
    (watch c w e).pexp = pexpAfter w.pexp e := by
  cases e with
  | bus a bytes =>
    simp only [watch, pexpAfter]
    induction bytes using List.reverseRecOn with
    | nil => rfl
    | append_singleton ys y _ =>
      rw [List.foldl_append]
      simp only [List.foldl_cons, List.foldl_nil, watchByte, latchAfter, List.getLast?_concat]
      split <;> rfl
  | cancelled o => cases o <;> rfl
  | _ => rfl

theorem foldl_watch_lines (c : Config) (w : Watch) (l : List Event) :
    (l.foldl (watch c) w).lines = l.foldl linesAfter w.lines := by
  induction l generalizing w with
  | nil => rfl
  | cons e l ih => rw [List.foldl_cons, List.foldl_cons, ih, watch_lines]

theorem foldl_watch_pexp (c : Config) (w : Watch) (l : List Event) :
    (l.foldl (watch c) w).pexp = l.foldl pexpAfter w.pexp := by
  induction l generalizing w with
  | nil => rfl
  | cons e l ih => rw [List.foldl_cons, List.foldl_cons, ih, watch_pexp]

/-- The latch trace of a longer trace: the new events watched from the block's shadows. -/
theorem latchTrace_append {s t : State} {l : List Event} (c : Config)
    (hs : s.recordsItsTrace) (ht : t.trace = s.trace ++ l) :
    ∃ w : Watch, w.lines = s.lines ∧ w.pexp = s.pexp ∧ w.tuples = latchTrace c s.trace ∧
      latchTrace c t.trace = (l.foldl (watch c) w).tuples := by
  refine ⟨s.trace.foldl (watch c) .start, ?_, ?_, rfl, ?_⟩
  · rw [foldl_watch_lines, hs.1]; rfl
  · rw [foldl_watch_pexp, hs.2.1]; rfl
  · unfold latchTrace; rw [ht, List.foldl_append]

end Sys2Proof.Machine
end

