-- ==== Sys2Proof/Laws/State.lean ====
section
/-! SUPPORT. One lemma per field per update of State, so that no proof unfolds a record update. -/

namespace Sys2Proof.Machine

@[simp] theorem State.answered_cfg (s : State) :
    s.answered.cfg = s.cfg := rfl
@[simp] theorem State.answered_live (s : State) :
    s.answered.live = s.live := rfl
@[simp] theorem State.answered_bl (s : State) :
    s.answered.bl = s.bl := rfl
@[simp] theorem State.answered_busy (s : State) :
    s.answered.busy = s.busy := rfl
@[simp] theorem State.answered_seq (s : State) :
    s.answered.seq = s.seq := rfl
@[simp] theorem State.answered_op (s : State) :
    s.answered.op = s.op := rfl
@[simp] theorem State.answered_byte (s : State) :
    s.answered.byte = s.byte := rfl
@[simp] theorem State.answered_isData (s : State) :
    s.answered.isData = s.isData := rfl
@[simp] theorem State.answered_state (s : State) :
    s.answered.state = s.state := rfl
@[simp] theorem State.answered_lines (s : State) :
    s.answered.lines = s.lines := rfl
@[simp] theorem State.answered_pexp (s : State) :
    s.answered.pexp = s.pexp := rfl
@[simp] theorem State.answered_failed (s : State) :
    s.answered.failed = s.failed := rfl
@[simp] theorem State.answered_cancelled (s : State) :
    s.answered.cancelled = s.cancelled := rfl
@[simp] theorem State.answered_trace (s : State) :
    s.answered.trace = s.trace := rfl
@[simp] theorem State.answered_owner (s : State) :
    s.answered.owner = s.owner := rfl
@[simp] theorem State.answered_env (s : State) :
    s.answered.env = s.env.tail := rfl

@[simp] theorem State.emit_cfg (s : State) (e : Event) :
    (s.emit e).cfg = s.cfg := rfl
@[simp] theorem State.emit_live (s : State) (e : Event) :
    (s.emit e).live = s.live := rfl
@[simp] theorem State.emit_bl (s : State) (e : Event) :
    (s.emit e).bl = s.bl := rfl
@[simp] theorem State.emit_busy (s : State) (e : Event) :
    (s.emit e).busy = s.busy := rfl
@[simp] theorem State.emit_seq (s : State) (e : Event) :
    (s.emit e).seq = s.seq := rfl
@[simp] theorem State.emit_op (s : State) (e : Event) :
    (s.emit e).op = s.op := rfl
@[simp] theorem State.emit_byte (s : State) (e : Event) :
    (s.emit e).byte = s.byte := rfl
@[simp] theorem State.emit_isData (s : State) (e : Event) :
    (s.emit e).isData = s.isData := rfl
@[simp] theorem State.emit_state (s : State) (e : Event) :
    (s.emit e).state = s.state := rfl
@[simp] theorem State.emit_lines (s : State) (e : Event) :
    (s.emit e).lines = s.lines := rfl
@[simp] theorem State.emit_pexp (s : State) (e : Event) :
    (s.emit e).pexp = s.pexp := rfl
@[simp] theorem State.emit_failed (s : State) (e : Event) :
    (s.emit e).failed = s.failed := rfl
@[simp] theorem State.emit_cancelled (s : State) (e : Event) :
    (s.emit e).cancelled = s.cancelled := rfl
@[simp] theorem State.emit_trace (s : State) (e : Event) :
    (s.emit e).trace = s.trace ++ [e] := rfl
@[simp] theorem State.emit_owner (s : State) (e : Event) :
    (s.emit e).owner = s.owner := rfl
@[simp] theorem State.emit_env (s : State) (e : Event) :
    (s.emit e).env = s.env := rfl

@[simp] theorem State.setLine_cfg (s : State) (p : Pin) (v : Shadow Bool) :
    (s.setLine p v).cfg = s.cfg := rfl
@[simp] theorem State.setLine_live (s : State) (p : Pin) (v : Shadow Bool) :
    (s.setLine p v).live = s.live := rfl
@[simp] theorem State.setLine_bl (s : State) (p : Pin) (v : Shadow Bool) :
    (s.setLine p v).bl = s.bl := rfl
@[simp] theorem State.setLine_busy (s : State) (p : Pin) (v : Shadow Bool) :
    (s.setLine p v).busy = s.busy := rfl
@[simp] theorem State.setLine_seq (s : State) (p : Pin) (v : Shadow Bool) :
    (s.setLine p v).seq = s.seq := rfl
@[simp] theorem State.setLine_op (s : State) (p : Pin) (v : Shadow Bool) :
    (s.setLine p v).op = s.op := rfl
@[simp] theorem State.setLine_byte (s : State) (p : Pin) (v : Shadow Bool) :
    (s.setLine p v).byte = s.byte := rfl
@[simp] theorem State.setLine_isData (s : State) (p : Pin) (v : Shadow Bool) :
    (s.setLine p v).isData = s.isData := rfl
@[simp] theorem State.setLine_state (s : State) (p : Pin) (v : Shadow Bool) :
    (s.setLine p v).state = s.state := rfl
@[simp] theorem State.setLine_lines (s : State) (p : Pin) (v : Shadow Bool) :
    (s.setLine p v).lines = s.lines.set p v := rfl
@[simp] theorem State.setLine_pexp (s : State) (p : Pin) (v : Shadow Bool) :
    (s.setLine p v).pexp = s.pexp := rfl
@[simp] theorem State.setLine_failed (s : State) (p : Pin) (v : Shadow Bool) :
    (s.setLine p v).failed = s.failed := rfl
@[simp] theorem State.setLine_cancelled (s : State) (p : Pin) (v : Shadow Bool) :
    (s.setLine p v).cancelled = s.cancelled := rfl
@[simp] theorem State.setLine_trace (s : State) (p : Pin) (v : Shadow Bool) :
    (s.setLine p v).trace = s.trace := rfl
@[simp] theorem State.setLine_owner (s : State) (p : Pin) (v : Shadow Bool) :
    (s.setLine p v).owner = s.owner := rfl
@[simp] theorem State.setLine_env (s : State) (p : Pin) (v : Shadow Bool) :
    (s.setLine p v).env = s.env := rfl

@[simp] theorem State.setPexp_cfg (s : State) (v : Shadow Byte) :
    (s.setPexp v).cfg = s.cfg := rfl
@[simp] theorem State.setPexp_live (s : State) (v : Shadow Byte) :
    (s.setPexp v).live = s.live := rfl
@[simp] theorem State.setPexp_bl (s : State) (v : Shadow Byte) :
    (s.setPexp v).bl = s.bl := rfl
@[simp] theorem State.setPexp_busy (s : State) (v : Shadow Byte) :
    (s.setPexp v).busy = s.busy := rfl
@[simp] theorem State.setPexp_seq (s : State) (v : Shadow Byte) :
    (s.setPexp v).seq = s.seq := rfl
@[simp] theorem State.setPexp_op (s : State) (v : Shadow Byte) :
    (s.setPexp v).op = s.op := rfl
@[simp] theorem State.setPexp_byte (s : State) (v : Shadow Byte) :
    (s.setPexp v).byte = s.byte := rfl
@[simp] theorem State.setPexp_isData (s : State) (v : Shadow Byte) :
    (s.setPexp v).isData = s.isData := rfl
@[simp] theorem State.setPexp_state (s : State) (v : Shadow Byte) :
    (s.setPexp v).state = s.state := rfl
@[simp] theorem State.setPexp_lines (s : State) (v : Shadow Byte) :
    (s.setPexp v).lines = s.lines := rfl
@[simp] theorem State.setPexp_pexp (s : State) (v : Shadow Byte) :
    (s.setPexp v).pexp = v := rfl
@[simp] theorem State.setPexp_failed (s : State) (v : Shadow Byte) :
    (s.setPexp v).failed = s.failed := rfl
@[simp] theorem State.setPexp_cancelled (s : State) (v : Shadow Byte) :
    (s.setPexp v).cancelled = s.cancelled := rfl
@[simp] theorem State.setPexp_trace (s : State) (v : Shadow Byte) :
    (s.setPexp v).trace = s.trace := rfl
@[simp] theorem State.setPexp_owner (s : State) (v : Shadow Byte) :
    (s.setPexp v).owner = s.owner := rfl
@[simp] theorem State.setPexp_env (s : State) (v : Shadow Byte) :
    (s.setPexp v).env = s.env := rfl

@[simp] theorem State.advance_cfg (s : State) :
    s.advance.cfg = s.cfg := rfl
@[simp] theorem State.advance_live (s : State) :
    s.advance.live = s.live := rfl
@[simp] theorem State.advance_bl (s : State) :
    s.advance.bl = s.bl := rfl
@[simp] theorem State.advance_busy (s : State) :
    s.advance.busy = s.busy := rfl
@[simp] theorem State.advance_seq (s : State) :
    s.advance.seq = s.seq + 1 := rfl
@[simp] theorem State.advance_op (s : State) :
    s.advance.op = s.op := rfl
@[simp] theorem State.advance_byte (s : State) :
    s.advance.byte = s.byte := rfl
@[simp] theorem State.advance_isData (s : State) :
    s.advance.isData = s.isData := rfl
@[simp] theorem State.advance_state (s : State) :
    s.advance.state = s.state := rfl
@[simp] theorem State.advance_lines (s : State) :
    s.advance.lines = s.lines := rfl
@[simp] theorem State.advance_pexp (s : State) :
    s.advance.pexp = s.pexp := rfl
@[simp] theorem State.advance_failed (s : State) :
    s.advance.failed = s.failed := rfl
@[simp] theorem State.advance_cancelled (s : State) :
    s.advance.cancelled = s.cancelled := rfl
@[simp] theorem State.advance_trace (s : State) :
    s.advance.trace = s.trace := rfl
@[simp] theorem State.advance_owner (s : State) :
    s.advance.owner = s.owner := rfl
@[simp] theorem State.advance_env (s : State) :
    s.advance.env = s.env := rfl

@[simp] theorem State.completeOk_cfg (s : State) :
    s.completeOk.cfg = s.cfg := rfl
@[simp] theorem State.completeOk_live (s : State) :
    s.completeOk.live = s.live := rfl
@[simp] theorem State.completeOk_bl (s : State) :
    s.completeOk.bl = s.bl := rfl
@[simp] theorem State.completeOk_busy (s : State) :
    s.completeOk.busy = false := rfl
@[simp] theorem State.completeOk_seq (s : State) :
    s.completeOk.seq = s.seq := rfl
@[simp] theorem State.completeOk_op (s : State) :
    s.completeOk.op = s.op := rfl
@[simp] theorem State.completeOk_byte (s : State) :
    s.completeOk.byte = s.byte := rfl
@[simp] theorem State.completeOk_isData (s : State) :
    s.completeOk.isData = s.isData := rfl
@[simp] theorem State.completeOk_state (s : State) :
    s.completeOk.state = s.state := rfl
@[simp] theorem State.completeOk_lines (s : State) :
    s.completeOk.lines = s.lines := rfl
@[simp] theorem State.completeOk_pexp (s : State) :
    s.completeOk.pexp = s.pexp := rfl
@[simp] theorem State.completeOk_failed (s : State) :
    s.completeOk.failed = s.failed := rfl
@[simp] theorem State.completeOk_cancelled (s : State) :
    s.completeOk.cancelled = s.cancelled := rfl
@[simp] theorem State.completeOk_trace (s : State) :
    s.completeOk.trace = s.trace ++ [.done .ok] := rfl
@[simp] theorem State.completeOk_owner (s : State) :
    s.completeOk.owner = s.owner := rfl
@[simp] theorem State.completeOk_env (s : State) :
    s.completeOk.env = s.env := rfl

@[simp] theorem State.raiseIoError_cfg (s : State) (port : Port) (e : NativeErr) :
    (s.raiseIoError port e).cfg = s.cfg := rfl
@[simp] theorem State.raiseIoError_live (s : State) (port : Port) (e : NativeErr) :
    (s.raiseIoError port e).live = s.live := rfl
@[simp] theorem State.raiseIoError_bl (s : State) (port : Port) (e : NativeErr) :
    (s.raiseIoError port e).bl = s.bl := rfl
@[simp] theorem State.raiseIoError_busy (s : State) (port : Port) (e : NativeErr) :
    (s.raiseIoError port e).busy = false := rfl
@[simp] theorem State.raiseIoError_seq (s : State) (port : Port) (e : NativeErr) :
    (s.raiseIoError port e).seq = s.seq := rfl
@[simp] theorem State.raiseIoError_op (s : State) (port : Port) (e : NativeErr) :
    (s.raiseIoError port e).op = s.op := rfl
@[simp] theorem State.raiseIoError_byte (s : State) (port : Port) (e : NativeErr) :
    (s.raiseIoError port e).byte = s.byte := rfl
@[simp] theorem State.raiseIoError_isData (s : State) (port : Port) (e : NativeErr) :
    (s.raiseIoError port e).isData = s.isData := rfl
@[simp] theorem State.raiseIoError_state (s : State) (port : Port) (e : NativeErr) :
    (s.raiseIoError port e).state = s.state := rfl
@[simp] theorem State.raiseIoError_lines (s : State) (port : Port) (e : NativeErr) :
    (s.raiseIoError port e).lines = s.lines := rfl
@[simp] theorem State.raiseIoError_pexp (s : State) (port : Port) (e : NativeErr) :
    (s.raiseIoError port e).pexp = s.pexp := rfl
@[simp] theorem State.raiseIoError_failed (s : State) (port : Port) (e : NativeErr) :
    (s.raiseIoError port e).failed = true := rfl
@[simp] theorem State.raiseIoError_cancelled (s : State) (port : Port) (e : NativeErr) :
    (s.raiseIoError port e).cancelled = s.cancelled := rfl
@[simp] theorem State.raiseIoError_trace (s : State) (port : Port) (e : NativeErr) :
    (s.raiseIoError port e).trace = s.trace ++ [.done (.err port e)] := rfl
@[simp] theorem State.raiseIoError_owner (s : State) (port : Port) (e : NativeErr) :
    (s.raiseIoError port e).owner = s.owner := rfl
@[simp] theorem State.raiseIoError_env (s : State) (port : Port) (e : NativeErr) :
    (s.raiseIoError port e).env = s.env := rfl

@[simp] theorem State.abandon_cfg (s : State) (o : Op) :
    (s.abandon o).cfg = s.cfg := rfl
@[simp] theorem State.abandon_live (s : State) (o : Op) :
    (s.abandon o).live = s.live := rfl
@[simp] theorem State.abandon_bl (s : State) (o : Op) :
    (s.abandon o).bl = s.bl := rfl
@[simp] theorem State.abandon_busy (s : State) (o : Op) :
    (s.abandon o).busy = false := rfl
@[simp] theorem State.abandon_seq (s : State) (o : Op) :
    (s.abandon o).seq = s.seq := rfl
@[simp] theorem State.abandon_op (s : State) (o : Op) :
    (s.abandon o).op = s.op := rfl
@[simp] theorem State.abandon_byte (s : State) (o : Op) :
    (s.abandon o).byte = s.byte := rfl
@[simp] theorem State.abandon_isData (s : State) (o : Op) :
    (s.abandon o).isData = s.isData := rfl
@[simp] theorem State.abandon_state (s : State) (o : Op) :
    (s.abandon o).state = s.state := rfl
@[simp] theorem State.abandon_lines (s : State) (o : Op) :
    (s.abandon o).lines = s.lines := rfl
@[simp] theorem State.abandon_pexp (s : State) (o : Op) :
    (s.abandon o).pexp = s.pexp := rfl
@[simp] theorem State.abandon_failed (s : State) (o : Op) :
    (s.abandon o).failed = s.failed := rfl
@[simp] theorem State.abandon_cancelled (s : State) (o : Op) :
    (s.abandon o).cancelled = true := rfl
@[simp] theorem State.abandon_trace (s : State) (o : Op) :
    (s.abandon o).trace = s.trace ++ [.cancelled o] := rfl
@[simp] theorem State.abandon_owner (s : State) (o : Op) :
    (s.abandon o).owner = s.owner := rfl
@[simp] theorem State.abandon_env (s : State) (o : Op) :
    (s.abandon o).env = s.env := rfl

@[simp] theorem State.acceptWrite_cfg (s : State) (b : Byte) (d : Bool) :
    (s.acceptWrite b d).cfg = s.cfg := rfl
@[simp] theorem State.acceptWrite_live (s : State) (b : Byte) (d : Bool) :
    (s.acceptWrite b d).live = s.live := rfl
@[simp] theorem State.acceptWrite_bl (s : State) (b : Byte) (d : Bool) :
    (s.acceptWrite b d).bl = s.bl := rfl
@[simp] theorem State.acceptWrite_busy (s : State) (b : Byte) (d : Bool) :
    (s.acceptWrite b d).busy = true := rfl
@[simp] theorem State.acceptWrite_seq (s : State) (b : Byte) (d : Bool) :
    (s.acceptWrite b d).seq = 0 := rfl
@[simp] theorem State.acceptWrite_op (s : State) (b : Byte) (d : Bool) :
    (s.acceptWrite b d).op = .write := rfl
@[simp] theorem State.acceptWrite_byte (s : State) (b : Byte) (d : Bool) :
    (s.acceptWrite b d).byte = b := rfl
@[simp] theorem State.acceptWrite_isData (s : State) (b : Byte) (d : Bool) :
    (s.acceptWrite b d).isData = d := rfl
@[simp] theorem State.acceptWrite_state (s : State) (b : Byte) (d : Bool) :
    (s.acceptWrite b d).state = s.state := rfl
@[simp] theorem State.acceptWrite_lines (s : State) (b : Byte) (d : Bool) :
    (s.acceptWrite b d).lines = s.lines := rfl
@[simp] theorem State.acceptWrite_pexp (s : State) (b : Byte) (d : Bool) :
    (s.acceptWrite b d).pexp = s.pexp := rfl
@[simp] theorem State.acceptWrite_failed (s : State) (b : Byte) (d : Bool) :
    (s.acceptWrite b d).failed = s.failed := rfl
@[simp] theorem State.acceptWrite_cancelled (s : State) (b : Byte) (d : Bool) :
    (s.acceptWrite b d).cancelled = s.cancelled := rfl
@[simp] theorem State.acceptWrite_trace (s : State) (b : Byte) (d : Bool) :
    (s.acceptWrite b d).trace = s.trace := rfl
@[simp] theorem State.acceptWrite_owner (s : State) (b : Byte) (d : Bool) :
    (s.acceptWrite b d).owner = s.owner := rfl
@[simp] theorem State.acceptWrite_env (s : State) (b : Byte) (d : Bool) :
    (s.acceptWrite b d).env = s.env := rfl

@[simp] theorem State.acceptSetbl_cfg (s : State) (v : Bool) :
    (s.acceptSetbl v).cfg = s.cfg := rfl
@[simp] theorem State.acceptSetbl_live (s : State) (v : Bool) :
    (s.acceptSetbl v).live = s.live := rfl
@[simp] theorem State.acceptSetbl_bl (s : State) (v : Bool) :
    (s.acceptSetbl v).bl = s.bl := rfl
@[simp] theorem State.acceptSetbl_busy (s : State) (v : Bool) :
    (s.acceptSetbl v).busy = true := rfl
@[simp] theorem State.acceptSetbl_seq (s : State) (v : Bool) :
    (s.acceptSetbl v).seq = 0 := rfl
@[simp] theorem State.acceptSetbl_op (s : State) (v : Bool) :
    (s.acceptSetbl v).op = .setbl := rfl
@[simp] theorem State.acceptSetbl_byte (s : State) (v : Bool) :
    (s.acceptSetbl v).byte = s.byte := rfl
@[simp] theorem State.acceptSetbl_isData (s : State) (v : Bool) :
    (s.acceptSetbl v).isData = s.isData := rfl
@[simp] theorem State.acceptSetbl_state (s : State) (v : Bool) :
    (s.acceptSetbl v).state = v := rfl
@[simp] theorem State.acceptSetbl_lines (s : State) (v : Bool) :
    (s.acceptSetbl v).lines = s.lines := rfl
@[simp] theorem State.acceptSetbl_pexp (s : State) (v : Bool) :
    (s.acceptSetbl v).pexp = s.pexp := rfl
@[simp] theorem State.acceptSetbl_failed (s : State) (v : Bool) :
    (s.acceptSetbl v).failed = s.failed := rfl
@[simp] theorem State.acceptSetbl_cancelled (s : State) (v : Bool) :
    (s.acceptSetbl v).cancelled = s.cancelled := rfl
@[simp] theorem State.acceptSetbl_trace (s : State) (v : Bool) :
    (s.acceptSetbl v).trace = s.trace := rfl
@[simp] theorem State.acceptSetbl_owner (s : State) (v : Bool) :
    (s.acceptSetbl v).owner = s.owner := rfl
@[simp] theorem State.acceptSetbl_env (s : State) (v : Bool) :
    (s.acceptSetbl v).env = s.env := rfl

@[simp] theorem State.storeBacklight_cfg (s : State) (v : Bool) :
    (s.storeBacklight v).cfg = s.cfg := rfl
@[simp] theorem State.storeBacklight_live (s : State) (v : Bool) :
    (s.storeBacklight v).live = s.live := rfl
@[simp] theorem State.storeBacklight_bl (s : State) (v : Bool) :
    (s.storeBacklight v).bl = v := rfl
@[simp] theorem State.storeBacklight_busy (s : State) (v : Bool) :
    (s.storeBacklight v).busy = s.busy := rfl
@[simp] theorem State.storeBacklight_seq (s : State) (v : Bool) :
    (s.storeBacklight v).seq = s.seq := rfl
@[simp] theorem State.storeBacklight_op (s : State) (v : Bool) :
    (s.storeBacklight v).op = s.op := rfl
@[simp] theorem State.storeBacklight_byte (s : State) (v : Bool) :
    (s.storeBacklight v).byte = 0 := rfl
@[simp] theorem State.storeBacklight_isData (s : State) (v : Bool) :
    (s.storeBacklight v).isData = false := rfl
@[simp] theorem State.storeBacklight_state (s : State) (v : Bool) :
    (s.storeBacklight v).state = s.state := rfl
@[simp] theorem State.storeBacklight_lines (s : State) (v : Bool) :
    (s.storeBacklight v).lines = s.lines := rfl
@[simp] theorem State.storeBacklight_pexp (s : State) (v : Bool) :
    (s.storeBacklight v).pexp = s.pexp := rfl
@[simp] theorem State.storeBacklight_failed (s : State) (v : Bool) :
    (s.storeBacklight v).failed = s.failed := rfl
@[simp] theorem State.storeBacklight_cancelled (s : State) (v : Bool) :
    (s.storeBacklight v).cancelled = s.cancelled := rfl
@[simp] theorem State.storeBacklight_trace (s : State) (v : Bool) :
    (s.storeBacklight v).trace = s.trace := rfl
@[simp] theorem State.storeBacklight_owner (s : State) (v : Bool) :
    (s.storeBacklight v).owner = s.owner := rfl
@[simp] theorem State.storeBacklight_env (s : State) (v : Bool) :
    (s.storeBacklight v).env = s.env := rfl

/-- Two states with the same fields are the same. -/
theorem State.eq_of_fields {s t : State}
    (h : s.cfg = t.cfg ∧ s.live = t.live ∧ s.bl = t.bl ∧ s.busy = t.busy ∧ s.seq = t.seq ∧
      s.op = t.op ∧ s.byte = t.byte ∧ s.isData = t.isData ∧ s.state = t.state ∧
      s.lines = t.lines ∧ s.pexp = t.pexp ∧ s.failed = t.failed ∧ s.cancelled = t.cancelled ∧
      s.trace = t.trace ∧ s.owner = t.owner ∧ s.env = t.env) : s = t := by
  obtain ⟨h1, h2, h3, h4, h5, h6, h7, h8, h9, h10, h11, h12, h13, h14, h15, h16⟩ := h
  cases s; cases t; simp_all

end Sys2Proof.Machine
end

