-- ==== Sys2Proof/Laws/Lines.lean ====
section
/-! SUPPORT. The line shadow: reading after writing. -/

namespace Sys2Proof.Machine

@[simp] theorem Lines.get_set_self (l : Lines) (p : Pin) (v : Shadow Bool) :
    (l.set p v).get p = v := by
  cases p <;> rfl

theorem Lines.get_set_of_ne (l : Lines) {p q : Pin} (v : Shadow Bool) (h : q ≠ p) :
    (l.set p v).get q = l.get q := by
  cases p <;> cases q <;> first | rfl | exact absurd rfl h

/-- Two line shadows that agree on every line are the same. -/
theorem Lines.ext_get {l k : Lines} (h : ∀ p, l.get p = k.get p) : l = k := by
  cases l; cases k
  simp only [Lines.mk.injEq]
  exact ⟨h .rs, h .en, h .d0, h .d1, h .d2, h .d3, h .d4, h .d5, h .d6, h .d7⟩

end Sys2Proof.Machine
end

