-- ==== Sys2Proof/Laws/Ops.lean ====
section
/-! SUPPORT. What issuing an operation and running a list of steps can do, said once. -/

namespace Sys2Proof.Machine

/-- The event of an operation that is answered `ok`. -/
def Op.event : Op → Event
  | .pinWrite p v => .pin p v
  | .busWrite a bytes => .bus a bytes
  | .delayMs n => .delay n

/-- The state after an operation that is answered `ok`. -/
def afterOk (s : State) : Op → State
  | .pinWrite p v => ((s.answered.setLine p (.known v)).emit (.pin p v)).advance
  | .busWrite a bytes =>
    ((s.answered.setPexp (latchAfter bytes s.pexp)).emit (.bus a bytes)).advance
  | .delayMs n => (s.answered.emit (.delay n)).advance

/-- The state after steps that are all answered `ok`. -/
def afterAll (s : State) (ops : List Op) : State := ops.foldl afterOk s

/-- How an operation that is not answered `ok` ends: every case there is. -/
inductive Breaks : Op → State → Progress → Prop where
  | pinFail (p v e s) (h : s.answer = .fail e) : Breaks (.pinWrite p v) s
      (.ended (((s.answered.setLine p .x).emit (.pinFail p v e)).raiseIoError (.line p) e))
  | pinStall (p v s) (h : s.answer = .stall) :
      Breaks (.pinWrite p v) s (.refused .pinWriteCannotStall)
  | pinCancel (p v s) (h : s.answer = .cancel) :
      Breaks (.pinWrite p v) s (.refused .cancelAtPinWrite)
  | busFail (a bytes e s) (h : s.answer = .fail e) : Breaks (.busWrite a bytes) s
      (.ended (((s.answered.setPexp .x).emit (.busFail a bytes e)).raiseIoError .i2c e))
  | busStall (a bytes s) (h : s.answer = .stall) : Breaks (.busWrite a bytes) s (.waiting s)
  | busCancel (a bytes s) (h : s.answer = .cancel) (hx : s.cfg.exec = .suspending) :
      Breaks (.busWrite a bytes) s
        (.ended ((s.answered.setPexp .x).abandon (.busWrite a bytes)))
  | busNoCancel (a bytes s) (h : s.answer = .cancel) (hx : s.cfg.exec = .blocking) :
      Breaks (.busWrite a bytes) s (.refused .cancelUnderBlocking)
  | delayFail (n e s) (h : s.answer = .fail e) :
      Breaks (.delayMs n) s (.refused .delayCannotFail)
  | delayStall (n s) (h : s.answer = .stall) : Breaks (.delayMs n) s (.waiting s)
  | delayCancel (n s) (h : s.answer = .cancel) (hx : s.cfg.exec = .suspending) :
      Breaks (.delayMs n) s (.ended (s.answered.abandon (.delayMs n)))
  | delayNoCancel (n s) (h : s.answer = .cancel) (hx : s.cfg.exec = .blocking) :
      Breaks (.delayMs n) s (.refused .cancelUnderBlocking)

/-- An operation answered `ok` is done. -/
theorem issue_ok {op : Op} {s : State} (h : s.answer = .ok) :
    issue op s = .running (afterOk s op) := by
  cases op <;> simp [issue, pinWrite, busWrite, delayMs, afterOk, h]

/-- An operation not answered `ok` breaks the list of steps. -/
theorem issue_breaks {op : Op} {s : State} (h : s.answer ≠ .ok) : Breaks op s (issue op s) := by
  cases op with
  | pinWrite p v =>
    cases ha : s.answer with
    | ok => exact absurd ha h
    | fail e => simpa [issue, pinWrite, ha] using Breaks.pinFail p v e s ha
    | stall => simpa [issue, pinWrite, ha] using Breaks.pinStall p v s ha
    | cancel => simpa [issue, pinWrite, ha] using Breaks.pinCancel p v s ha
  | busWrite a bytes =>
    cases ha : s.answer with
    | ok => exact absurd ha h
    | fail e => simpa [issue, busWrite, ha] using Breaks.busFail a bytes e s ha
    | stall => simpa [issue, busWrite, ha] using Breaks.busStall a bytes s ha
    | cancel =>
      cases hx : s.cfg.exec with
      | blocking =>
        simpa [issue, busWrite, cancelPending, ha, hx] using Breaks.busNoCancel a bytes s ha hx
      | suspending =>
        simpa [issue, busWrite, cancelPending, ha, hx] using Breaks.busCancel a bytes s ha hx
  | delayMs n =>
    cases ha : s.answer with
    | ok => exact absurd ha h
    | fail e => simpa [issue, delayMs, ha] using Breaks.delayFail n e s ha
    | stall => simpa [issue, delayMs, ha] using Breaks.delayStall n s ha
    | cancel =>
      cases hx : s.cfg.exec with
      | blocking =>
        simpa [issue, delayMs, cancelPending, ha, hx] using Breaks.delayNoCancel n s ha hx
      | suspending =>
        simpa [issue, delayMs, cancelPending, ha, hx] using Breaks.delayCancel n s ha hx

/-- A broken operation is never done. -/
theorem Breaks.not_running {op : Op} {s t : State} : ¬ Breaks op s (.running t) := nofun

/-- A done operation was answered `ok`. -/
theorem issue_running {op : Op} {s t : State} (h : issue op s = .running t) :
    s.answer = .ok ∧ t = afterOk s op := by
  by_cases ha : s.answer = .ok
  · rw [issue_ok ha] at h
    exact ⟨ha, (Progress.running.inj h).symm⟩
  · exact absurd (h ▸ issue_breaks ha) Breaks.not_running

@[simp] theorem perform_nil (s : State) : perform [] s = .running s := rfl

/-- A step answered `ok` is followed by the rest of the list. -/
theorem perform_cons_ok {op : Op} {ops : List Op} {s : State} (h : s.answer = .ok) :
    perform (op :: ops) s = perform ops (afterOk s op) := by
  simp [perform, issue_ok h]

/-- A step not answered `ok` ends the list. -/
theorem perform_cons_break {op : Op} {ops : List Op} {s : State} (h : s.answer ≠ .ok) :
    perform (op :: ops) s = issue op s := by
  have hb := issue_breaks (op := op) h
  simp only [perform]
  cases hi : issue op s with
  | running t => exact absurd (hi ▸ hb) Breaks.not_running
  | ended t => rfl
  | waiting t => rfl
  | refused r => rfl

/-- Fixed expansions (R63): a list in two parts runs as the one part and then the other. -/
theorem perform_append (xs ys : List Op) (s : State) :
    perform (xs ++ ys) s =
      match perform xs s with
      | .running t => perform ys t
      | .ended t => .ended t
      | .waiting t => .waiting t
      | .refused r => .refused r := by
  induction xs generalizing s with
  | nil => rfl
  | cons op xs ih =>
    simp only [List.cons_append, perform]
    cases issue op s with
    | running t => exact ih t
    | ended t => rfl
    | waiting t => rfl
    | refused r => rfl

@[simp] theorem afterAll_nil (s : State) : afterAll s [] = s := rfl

theorem afterAll_cons (s : State) (op : Op) (ops : List Op) :
    afterAll s (op :: ops) = afterAll (afterOk s op) ops := rfl

theorem afterAll_append (s : State) (xs ys : List Op) :
    afterAll s (xs ++ ys) = afterAll (afterAll s xs) ys := List.foldl_append

@[simp] theorem afterOk_env (s : State) (op : Op) : (afterOk s op).env = s.env.tail := by
  cases op <;> rfl

/-- The answer to the first operation is the head of the script, or `ok` past its end. -/
theorem answer_of_take {s : State} {n : Nat} (h : ∀ a ∈ s.env.take (n + 1), a = .ok) :
    s.answer = .ok := by
  unfold State.answer
  cases he : s.env with
  | nil => rfl
  | cons a rest => exact h a (by simp [he])

/-- Steps that are all answered `ok` run to the end. -/
theorem perform_all_ok {ops : List Op} {s : State} (h : ∀ a ∈ s.env.take ops.length, a = .ok) :
    perform ops s = .running (afterAll s ops) := by
  induction ops generalizing s with
  | nil => rfl
  | cons op ops ih =>
    rw [perform_cons_ok (answer_of_take h), afterAll_cons]
    refine ih fun a ha => h a ?_
    rw [afterOk_env] at ha
    cases he : s.env with
    | nil => simp [he] at ha
    | cons b rest =>
      rw [he] at ha
      simp only [List.length_cons, List.take_succ_cons, List.mem_cons]
      exact .inr ha

/-- Everything a list of steps can do: all of it is answered `ok`, or the first step that is not
breaks it. -/
theorem perform_cases (ops : List Op) (s : State) :
    perform ops s = .running (afterAll s ops) ∨
      ∃ pre op post, ops = pre ++ op :: post ∧
        perform ops s = issue op (afterAll s pre) ∧
        Breaks op (afterAll s pre) (perform ops s) := by
  induction ops generalizing s with
  | nil => exact .inl rfl
  | cons op ops ih =>
    by_cases ha : s.answer = .ok
    · rw [perform_cons_ok ha, afterAll_cons]
      rcases ih (afterOk s op) with h | ⟨pre, o, post, rfl, hp, hb⟩
      · exact .inl h
      · exact .inr ⟨op :: pre, o, post, rfl, hp, hb⟩
    · rw [perform_cons_break ha]
      exact .inr ⟨[], op, ops, rfl, rfl, issue_breaks ha⟩

/-- A script of `n` answers `ok` and then another: the first `n` steps are done, and the next one is
issued with the rest of the script. -/
theorem perform_after_oks {pre post : List Op} {op : Op} {s : State} {rest : List Answer}
    (h : s.env = List.replicate pre.length .ok ++ rest) :
    perform (pre ++ op :: post) s = perform (op :: post) (afterAll s pre) := by
  induction pre generalizing s with
  | nil => rfl
  | cons o pre ih =>
    have ha : s.answer = .ok := by simp [State.answer, h, List.replicate_succ]
    rw [List.cons_append, perform_cons_ok ha, afterAll_cons]
    exact ih (by simp [h, List.replicate_succ])

section Fields
variable (s : State) (op : Op) (ops : List Op)

@[simp] theorem afterOk_cfg : (afterOk s op).cfg = s.cfg := by cases op <;> rfl
@[simp] theorem afterOk_live : (afterOk s op).live = s.live := by cases op <;> rfl
@[simp] theorem afterOk_bl : (afterOk s op).bl = s.bl := by cases op <;> rfl
@[simp] theorem afterOk_busy : (afterOk s op).busy = s.busy := by cases op <;> rfl
@[simp] theorem afterOk_seq : (afterOk s op).seq = s.seq + 1 := by cases op <;> rfl
@[simp] theorem afterOk_op : (afterOk s op).op = s.op := by cases op <;> rfl
@[simp] theorem afterOk_byte : (afterOk s op).byte = s.byte := by cases op <;> rfl
@[simp] theorem afterOk_isData : (afterOk s op).isData = s.isData := by cases op <;> rfl
@[simp] theorem afterOk_state : (afterOk s op).state = s.state := by cases op <;> rfl
@[simp] theorem afterOk_failed : (afterOk s op).failed = s.failed := by cases op <;> rfl
@[simp] theorem afterOk_cancelled : (afterOk s op).cancelled = s.cancelled := by cases op <;> rfl
@[simp] theorem afterOk_owner : (afterOk s op).owner = s.owner := by cases op <;> rfl
@[simp] theorem afterOk_trace : (afterOk s op).trace = s.trace ++ [op.event] := by
  cases op <;> rfl

@[simp] theorem afterAll_cfg : (afterAll s ops).cfg = s.cfg := by
  induction ops generalizing s <;> simp_all [afterAll_cons]
@[simp] theorem afterAll_live : (afterAll s ops).live = s.live := by
  induction ops generalizing s <;> simp_all [afterAll_cons]
@[simp] theorem afterAll_bl : (afterAll s ops).bl = s.bl := by
  induction ops generalizing s <;> simp_all [afterAll_cons]
@[simp] theorem afterAll_busy : (afterAll s ops).busy = s.busy := by
  induction ops generalizing s <;> simp_all [afterAll_cons]
@[simp] theorem afterAll_seq : (afterAll s ops).seq = s.seq + ops.length := by
  induction ops generalizing s <;> simp_all [afterAll_cons]; omega
@[simp] theorem afterAll_op : (afterAll s ops).op = s.op := by
  induction ops generalizing s <;> simp_all [afterAll_cons]
@[simp] theorem afterAll_byte : (afterAll s ops).byte = s.byte := by
  induction ops generalizing s <;> simp_all [afterAll_cons]
@[simp] theorem afterAll_isData : (afterAll s ops).isData = s.isData := by
  induction ops generalizing s <;> simp_all [afterAll_cons]
@[simp] theorem afterAll_state : (afterAll s ops).state = s.state := by
  induction ops generalizing s <;> simp_all [afterAll_cons]
@[simp] theorem afterAll_failed : (afterAll s ops).failed = s.failed := by
  induction ops generalizing s <;> simp_all [afterAll_cons]
@[simp] theorem afterAll_cancelled : (afterAll s ops).cancelled = s.cancelled := by
  induction ops generalizing s <;> simp_all [afterAll_cons]
@[simp] theorem afterAll_owner : (afterAll s ops).owner = s.owner := by
  induction ops generalizing s <;> simp_all [afterAll_cons]
@[simp] theorem afterAll_env : (afterAll s ops).env = s.env.drop ops.length := by
  induction ops generalizing s <;> simp_all [afterAll_cons]
@[simp] theorem afterAll_trace : (afterAll s ops).trace = s.trace ++ ops.map Op.event := by
  induction ops generalizing s <;> simp_all [afterAll_cons]

end Fields

end Sys2Proof.Machine
end

