-- ==== Sys2Proof/Laws/Observe.lean ====
section
/-! SUPPORT. The shadows after a list of steps are read off its events. -/

namespace Sys2Proof.Machine

theorem afterOk_lines (s : State) (op : Op) : (afterOk s op).lines = linesAfter s.lines op.event := by
  cases op <;> rfl

theorem afterOk_pexp (s : State) (op : Op) : (afterOk s op).pexp = pexpAfter s.pexp op.event := by
  cases op <;> rfl

@[simp] theorem afterAll_lines (s : State) (ops : List Op) :
    (afterAll s ops).lines = (ops.map Op.event).foldl linesAfter s.lines := by
  induction ops generalizing s with
  | nil => rfl
  | cons op ops ih => rw [afterAll_cons, ih, afterOk_lines]; rfl

@[simp] theorem afterAll_pexp (s : State) (ops : List Op) :
    (afterAll s ops).pexp = (ops.map Op.event).foldl pexpAfter s.pexp := by
  induction ops generalizing s with
  | nil => rfl
  | cons op ops ih => rw [afterAll_cons, ih, afterOk_pexp]; rfl

/-- An operation that was answered `ok` is neither a failure nor a cancellation. -/
@[simp] theorem Op.event_isErr (op : Op) : op.event.isErr = false := by cases op <;> rfl

@[simp] theorem Op.event_isCancelled (op : Op) : op.event.isCancelled = false := by
  cases op <;> rfl

end Sys2Proof.Machine
end

