-- ==== Sys2Proof/Laws/PerInstr.lean ====
section
/-! SUPPORT. Statements made for every instruction, with one lemma per constructor. -/

namespace Sys2Proof.Laws.WordIffRequest

/-- An instruction has a request word exactly where it is a request form of some mode (R58). -/
def Statement (i : Instr) : Prop := (encode i).isSome = i.requestMode.isSome

theorem write4 (b : Byte) (d : Bool) : Statement (.write4 b d) := rfl

theorem setbl4 (v : Bool) : Statement (.setbl4 v) := rfl

theorem write8 (b : Byte) (d : Bool) : Statement (.write8 b d) := rfl

theorem setbl8 (v : Bool) : Statement (.setbl8 v) := rfl

theorem writeI2c (b : Byte) (d : Bool) : Statement (.writeI2c b d) := rfl

theorem setblI2c (v : Bool) : Statement (.setblI2c v) := rfl

theorem wrnibI2c (n : Byte) (d : Bool) : Statement (.wrnibI2c n d) := rfl

theorem pulse : Statement .pulse := rfl

end Sys2Proof.Laws.WordIffRequest
end

