-- ==== Sys2Proof/Laws/Request.lean ====
section
/-! SUPPORT. One form for all instructions: what a request accepts, the steps it runs, and
everything its run can end in. -/

namespace Sys2Proof.Machine

/-- The state in which the steps of an instruction start. -/
def accepted : Instr → State → State
  | .write4 b d, s => s.acceptWrite b d
  | .setbl4 v, s => s.acceptSetbl v
  | .write8 b d, s => s.acceptWrite b d
  | .setbl8 v, s => s.acceptSetbl v
  | .writeI2c b d, s => s.acceptWrite b d
  | .setblI2c v, s => (s.acceptSetbl v).storeBacklight v
  | .wrnibI2c _ _, s => s
  | .pulse, s => s

/-- The steps of an instruction. -/
def stepsOf : Instr → State → List Op
  | .write4 b d, s => write4Steps s.cfg b d
  | .setbl4 _, _ => []
  | .write8 b d, s => write8Steps s.cfg b d
  | .setbl8 _, _ => []
  | .writeI2c b d, s => writeI2cSteps s.cfg s.bl b d
  | .setblI2c v, s => writeI2cSteps s.cfg v 0x00 false
  | .wrnibI2c n d, s => wrnibSteps s.cfg s.bl n d
  | .pulse, s => pulseSteps s.cfg

/-- An accepted request runs its steps. -/
theorem exec_request {i : Instr} {m : Mode} {s : State} (hi : i.requestMode = some m)
    (h : s.ready m) : exec i s = finishRequest (perform (stepsOf i s) (accepted i s)) := by
  obtain ⟨hl, hb, hm⟩ := h
  cases i <;> simp only [Instr.requestMode, Option.some.injEq, reduceCtorEq] at hi <;>
    subst hi <;>
    simp [exec, execWrite4, execSetbl4, execWrite8, execSetbl8, execWriteI2c, execSetblI2c,
      whenAccepted, hl, hb, hm, stepsOf, accepted]

/-- A request that has a next state was accepted. -/
theorem ready_of_exec {i : Instr} {m : Mode} {s t : State} (hi : i.requestMode = some m)
    (h : exec i s = .next t) : s.ready m := by
  by_cases hl : s.live = false
  · cases i <;> simp_all [exec, execWrite4, execSetbl4, execWrite8, execSetbl8, execWriteI2c,
      execSetblI2c, whenAccepted, Instr.requestMode]
  · by_cases hm : s.cfg.mode = m
    · by_cases hb : s.busy = true
      · cases i <;> simp_all [exec, execWrite4, execSetbl4, execWrite8, execSetbl8, execWriteI2c,
          execSetblI2c, whenAccepted, Instr.requestMode]
      · exact ⟨by simpa using hl, by simpa using hb, hm⟩
    · cases i <;> simp_all [exec, execWrite4, execSetbl4, execWrite8, execSetbl8, execWriteI2c,
        execSetblI2c, whenAccepted, Instr.requestMode]

/-- The bits of the upper nibble (R55). -/
theorem hi4_getLsbD (b : Byte) {k : Nat} (h : k < 4) :
    (hi4 b).getLsbD k = b.getLsbD (k + 4) := by
  have : k = 0 ∨ k = 1 ∨ k = 2 ∨ k = 3 := by omega
  rcases this with rfl | rfl | rfl | rfl <;> revert b <;> decide

/-- The bits of the lower nibble (R55). -/
theorem lo4_getLsbD (b : Byte) {k : Nat} (h : k < 4) : (lo4 b).getLsbD k = b.getLsbD k := by
  have : k = 0 ∨ k = 1 ∨ k = 2 ∨ k = 3 := by omega
  rcases this with rfl | rfl | rfl | rfl <;> revert b <;> decide

/-- The upper nibble is presented as bits 4 to 7 of the byte (R31, R32). -/
theorem present4_hi4 (b : Byte) : present4 (hi4 b) =
    [.pinWrite .d4 (b.getLsbD 4), .pinWrite .d5 (b.getLsbD 5),
     .pinWrite .d6 (b.getLsbD 6), .pinWrite .d7 (b.getLsbD 7)] := by
  simp only [present4, hi4_getLsbD b (show 0 < 4 by decide), hi4_getLsbD b (show 1 < 4 by decide),
    hi4_getLsbD b (show 2 < 4 by decide), hi4_getLsbD b (show 3 < 4 by decide)]

/-- The lower nibble is presented as bits 0 to 3 of the byte (R31, R32). -/
theorem present4_lo4 (b : Byte) : present4 (lo4 b) =
    [.pinWrite .d4 (b.getLsbD 0), .pinWrite .d5 (b.getLsbD 1),
     .pinWrite .d6 (b.getLsbD 2), .pinWrite .d7 (b.getLsbD 3)] := by
  simp only [present4, lo4_getLsbD b (show 0 < 4 by decide), lo4_getLsbD b (show 1 < 4 by decide),
    lo4_getLsbD b (show 2 < 4 by decide), lo4_getLsbD b (show 3 < 4 by decide)]

/-- The steps of a request are its events, row by row. -/
theorem map_event_stepsOf {i : Instr} {m : Mode} (s : State) (hi : i.requestMode = some m) :
    (stepsOf i s).map Op.event = requestEvents s i := by
  cases i with
  | write4 b d =>
    have hi0 := present4_hi4 b
    have lo0 := present4_lo4 b
    cases d <;> simp only [stepsOf, requestEvents, write4Steps, write4Events, hi0, lo0] <;> rfl
  | setbl4 v => rfl
  | write8 b d => cases d <;> rfl
  | setbl8 v => rfl
  | writeI2c b d => rfl
  | setblI2c v => rfl
  | wrnibI2c n d => simp [Instr.requestMode] at hi
  | pulse => simp [Instr.requestMode] at hi

/-- The step table of the request in flight is that of the accepted request. -/
theorem requestSteps_accepted {i : Instr} {m : Mode} {s : State} (hi : i.requestMode = some m)
    (hm : s.cfg.mode = m) : requestSteps (accepted i s) = stepsOf i s := by
  subst hm
  cases i <;> simp [Instr.requestMode] at hi <;>
    simp [requestSteps, accepted, stepsOf, ← hi]

/-- How a state that is not the end of all steps is reached: every case there is. -/
inductive StopsAt : Op → State → State → Prop where
  | pinFail (p v e s) : StopsAt (.pinWrite p v) s
      (((s.answered.setLine p .x).emit (.pinFail p v e)).raiseIoError (.line p) e)
  | busFail (a bytes e s) : StopsAt (.busWrite a bytes) s
      (((s.answered.setPexp .x).emit (.busFail a bytes e)).raiseIoError .i2c e)
  | busCancel (a bytes s) (hx : s.cfg.exec = .suspending) : StopsAt (.busWrite a bytes) s
      ((s.answered.setPexp .x).abandon (.busWrite a bytes))
  | delayCancel (n s) (hx : s.cfg.exec = .suspending) : StopsAt (.delayMs n) s
      (s.answered.abandon (.delayMs n))
  | busWait (a bytes s) (h : s.answer = .stall) : StopsAt (.busWrite a bytes) s s
  | delayWait (n s) (h : s.answer = .stall) : StopsAt (.delayMs n) s s

/-- The state a broken operation leaves, if it leaves one. -/
theorem Breaks.stops {op : Op} {s t : State} {p : Progress} (h : Breaks op s p)
    (ht : p = .ended t ∨ p = .waiting t) : StopsAt op s t := by
  cases h <;> simp at ht <;> subst ht <;> constructor <;> assumption

/-- Everything a request's run can leave: the end of all its steps and `Done(Ok)`, or the state of
the first step that was not answered `ok`. -/
theorem finishRequest_perform {ops : List Op} {s t : State}
    (h : finishRequest (perform ops s) = .next t) :
    t = (afterAll s ops).completeOk ∨
      ∃ pre op post, ops = pre ++ op :: post ∧ StopsAt op (afterAll s pre) t := by
  rcases perform_cases ops s with hp | ⟨pre, op, post, rfl, -, hb⟩
  · rw [hp] at h
    exact .inl (Host.Outcome.next.inj h).symm
  · refine .inr ⟨pre, op, post, rfl, hb.stops ?_⟩
    cases hp : perform (pre ++ op :: post) s with
    | running u => exact absurd (hp ▸ hb) Breaks.not_running
    | ended u => rw [hp] at h; exact .inl (congrArg _ (Host.Outcome.next.inj h))
    | waiting u => rw [hp] at h; exact .inr (congrArg _ (Host.Outcome.next.inj h))
    | refused r => rw [hp] at h; cases h

/-- Everything an internal form's run can leave. -/
theorem finishInternal_perform {ops : List Op} {s t : State}
    (h : finishInternal (perform ops s) = .next t) :
    t = afterAll s ops ∨
      ∃ pre op post, ops = pre ++ op :: post ∧ StopsAt op (afterAll s pre) t := by
  rcases perform_cases ops s with hp | ⟨pre, op, post, rfl, -, hb⟩
  · rw [hp] at h
    exact .inl (Host.Outcome.next.inj h).symm
  · refine .inr ⟨pre, op, post, rfl, hb.stops ?_⟩
    cases hp : perform (pre ++ op :: post) s with
    | running u => exact absurd (hp ▸ hb) Breaks.not_running
    | ended u => rw [hp] at h; exact .inl (congrArg _ (Host.Outcome.next.inj h))
    | waiting u => rw [hp] at h; exact .inr (congrArg _ (Host.Outcome.next.inj h))
    | refused r => rw [hp] at h; cases h

/-- Everything a step can do: idle without a move, a move of the owner, or the request in flight
going on. -/
theorem step_cases {s t : State} (h : step s = .next t) :
    (s.busy = true ∧ finishRequest (perform ((requestSteps s).drop s.seq) s) = .next t) ∨
    (s.busy = false ∧ s.owner = [] ∧ t = s) ∨
    (∃ w rest i, s.busy = false ∧ s.live = true ∧ s.owner = .request w :: rest ∧
      decode s.cfg.mode w = .ok i ∧ exec i { s with owner := rest } = .next t) ∨
    (∃ rest, s.busy = false ∧ s.live = true ∧ s.owner = .teardown :: rest ∧
      t = { s with owner := rest, live := false }) ∨
    (∃ a rest, s.busy = false ∧ s.live = false ∧ s.owner = .construct a :: rest ∧
      a.config.wf = true ∧
      t = { State.construct a.config with owner := rest, env := s.env }) := by
  unfold step blockStep at h
  split at h
  · next hb => exact .inl ⟨hb, h⟩
  next hb =>
  have hb : s.busy = false := by simpa using hb
  unfold ownerStep at h
  split at h
  · next ho => exact .inr (.inl ⟨hb, ho, (Host.Outcome.next.inj h).symm⟩)
  next mv rest ho =>
  cases mv with
  | request w =>
    simp only [takeMove, takeRequest] at h
    split at h
    · cases h
    next hl =>
    split at h
    · next i hd => exact .inr (.inr (.inl ⟨w, rest, i, hb, by simpa using hl, ho, hd, h⟩))
    · cases h
  | teardown =>
    simp only [takeMove, takeTeardown] at h
    split at h
    · cases h
    next hl =>
    simp only [hb] at h
    exact .inr (.inr (.inr (.inl ⟨rest, hb, by simpa using hl, ho, by
      rw [← Host.Outcome.next.inj h]; simp [hb]⟩)))
  | construct a =>
    simp only [takeMove, takeConstruct] at h
    split at h
    · cases h
    next hl =>
    split at h
    · cases h
    split at h
    · cases h
    next hw =>
    exact .inr (.inr (.inr (.inr ⟨a, rest, hb, by simpa using hl, ho, by simpa using hw,
      (Host.Outcome.next.inj h).symm⟩)))

/-- A decoded request is a request form of the block's mode. -/
theorem requestMode_of_decode {m : Mode} {w : ReqWord} {i : Instr} (h : decode m w = .ok i) :
    i.requestMode = some m := by
  unfold decode at h
  split at h
  · split at h
    · cases h; cases m <;> rfl
    · cases h
  · cases h; cases m <;> rfl

/-- The steps of an internal form run inside a request of its modes. -/
theorem exec_pulse {s : State} (h : s.inFlight [.fourBit, .eightBit]) :
    exec .pulse s = finishInternal (perform (pulseSteps s.cfg) s) := by
  obtain ⟨hl, hb, hm⟩ := h
  simp [exec, execPulse, whenInFlight, hl, hb, hm]

theorem exec_wrnibI2c {n : Byte} {d : Bool} {s : State} (h : s.inFlight [.i2c]) :
    exec (.wrnibI2c n d) s = finishInternal (perform (wrnibSteps s.cfg s.bl n d) s) := by
  obtain ⟨hl, hb, hm⟩ := h
  simp [exec, execWrnibI2c, whenInFlight, hl, hb, hm]

/-- An internal form that has a next state was run inside a request. -/
theorem inFlight_of_exec_pulse {s t : State} (h : exec .pulse s = .next t) :
    s.inFlight [.fourBit, .eightBit] := by
  simp only [exec, execPulse, whenInFlight] at h
  split at h
  · cases h
  next hl =>
  split at h
  · cases h
  next hm =>
  split at h
  · cases h
  next hb => exact ⟨by simpa using hl, by simpa using hb, Decidable.not_not.mp hm⟩

theorem inFlight_of_exec_wrnibI2c {n : Byte} {d : Bool} {s t : State}
    (h : exec (.wrnibI2c n d) s = .next t) : s.inFlight [.i2c] := by
  simp only [exec, execWrnibI2c, whenInFlight] at h
  split at h
  · cases h
  next hl =>
  split at h
  · cases h
  next hm =>
  split at h
  · cases h
  next hb => exact ⟨by simpa using hl, by simpa using hb, Decidable.not_not.mp hm⟩

/-- Everything an instruction can leave: all its steps done (for a request, with `Done(Ok)`), or the
state of the first step that was not answered `ok`. -/
theorem exec_cases {i : Instr} {s t : State} (h : exec i s = .next t) :
    t = (afterAll (accepted i s) (stepsOf i s)).completeOk ∨
    (i.requestMode = none ∧ t = afterAll (accepted i s) (stepsOf i s)) ∨
      ∃ pre op post, stepsOf i s = pre ++ op :: post ∧
        StopsAt op (afterAll (accepted i s) pre) t := by
  cases hi : i.requestMode with
  | some m =>
    rw [exec_request hi (ready_of_exec hi h)] at h
    rcases finishRequest_perform h with h | h
    · exact .inl h
    · exact .inr (.inr h)
  | none =>
    cases i with
    | pulse =>
      rw [exec_pulse (inFlight_of_exec_pulse h)] at h
      rcases finishInternal_perform h with h | h
      · exact .inr (.inl ⟨rfl, h⟩)
      · exact .inr (.inr h)
    | wrnibI2c n d =>
      rw [exec_wrnibI2c (inFlight_of_exec_wrnibI2c h)] at h
      rcases finishInternal_perform h with h | h
      · exact .inr (.inl ⟨rfl, h⟩)
      · exact .inr (.inr h)
    | write4 b d => simp [Instr.requestMode] at hi
    | setbl4 v => simp [Instr.requestMode] at hi
    | write8 b d => simp [Instr.requestMode] at hi
    | setbl8 v => simp [Instr.requestMode] at hi
    | writeI2c b d => simp [Instr.requestMode] at hi
    | setblI2c v => simp [Instr.requestMode] at hi

section Accepted
variable (i : Instr) (s : State)

@[simp] theorem accepted_cfg : (accepted i s).cfg = s.cfg := by cases i <;> rfl
@[simp] theorem accepted_live : (accepted i s).live = s.live := by cases i <;> rfl
@[simp] theorem accepted_bl : (accepted i s).bl = flagAfter s i := by cases i <;> rfl
@[simp] theorem accepted_lines : (accepted i s).lines = s.lines := by cases i <;> rfl
@[simp] theorem accepted_pexp : (accepted i s).pexp = s.pexp := by cases i <;> rfl
@[simp] theorem accepted_failed : (accepted i s).failed = s.failed := by cases i <;> rfl
@[simp] theorem accepted_cancelled : (accepted i s).cancelled = s.cancelled := by cases i <;> rfl
@[simp] theorem accepted_trace : (accepted i s).trace = s.trace := by cases i <;> rfl
@[simp] theorem accepted_owner : (accepted i s).owner = s.owner := by cases i <;> rfl
@[simp] theorem accepted_env : (accepted i s).env = s.env := by cases i <;> rfl

end Accepted

/-- Everything a request can leave, in one form for all six. -/
theorem exec_request_cases {i : Instr} {m : Mode} {s t : State} (hi : i.requestMode = some m)
    (h : exec i s = .next t) :
    s.ready m ∧ (t = (afterAll (accepted i s) (stepsOf i s)).completeOk ∨
      ∃ pre op post, stepsOf i s = pre ++ op :: post ∧
        StopsAt op (afterAll (accepted i s) pre) t) := by
  have hr := ready_of_exec hi h
  rw [exec_request hi hr] at h
  exact ⟨hr, finishRequest_perform h⟩

end Sys2Proof.Machine
end

