-- ==== Sys2Proof/Laws/Sequencer.lean ====
section
/-! SUPPORT. A request that is answered `ok` throughout, a request up to a given step, and a request
that goes on after a wait. -/

namespace Sys2Proof.Machine

theorem accepted_busy_of_request {i : Instr} {m : Mode} {s : State}
    (hi : i.requestMode = some m) : (accepted i s).busy = true := by
  cases i <;> first | rfl | simp [Instr.requestMode] at hi

theorem accepted_seq_of_request {i : Instr} {m : Mode} {s : State}
    (hi : i.requestMode = some m) : (accepted i s).seq = 0 := by
  cases i <;> first | rfl | simp [Instr.requestMode] at hi

/-- A request answered `ok` throughout runs all its steps and completes (R72). -/
theorem exec_request_ok {i : Instr} {m : Mode} {s : State} (hi : i.requestMode = some m)
    (h : s.ready m) (ho : s.answersOk (stepsOf i s).length) :
    exec i s = .next (afterAll (accepted i s) (stepsOf i s)).completeOk := by
  rw [exec_request hi h, perform_all_ok (by simpa using ho)]
  rfl

/-- The row of a request's step table that has a given event. -/
theorem stepsOf_split {i : Instr} {m : Mode} {s : State} {k : Nat} {ev : Event}
    (hi : i.requestMode = some m) (h : (requestEvents s i)[k]? = some ev) :
    ∃ pre op post, stepsOf i s = pre ++ op :: post ∧ pre.length = k ∧ op.event = ev ∧
      pre.map Op.event = (requestEvents s i).take k := by
  rw [← map_event_stepsOf s hi] at h ⊢
  have hk : k < (stepsOf i s).length := by
    by_contra hc
    simp only [not_lt] at hc
    simp [List.getElem?_eq_none (by simpa using hc)] at h
  refine ⟨(stepsOf i s).take k, (stepsOf i s)[k], (stepsOf i s).drop (k + 1), by simp,
    by simp; omega, ?_, by simp [List.map_take]⟩
  simpa [List.getElem?_map, List.getElem?_eq_getElem hk] using h

/-- A request whose first steps are answered `ok` stands at the next step. -/
theorem exec_request_at {i : Instr} {m : Mode} {s : State} {pre post : List Op} {op : Op}
    {rest : List Answer} (hi : i.requestMode = some m) (h : s.ready m)
    (hs : stepsOf i s = pre ++ op :: post) (he : s.env = List.replicate pre.length .ok ++ rest) :
    exec i s = finishRequest (perform (op :: post) (afterAll (accepted i s) pre)) := by
  rw [exec_request hi h, hs, perform_after_oks (rest := rest) (by simpa using he)]

/-- The answer to the step a request stands at. -/
theorem answer_after_oks {i : Instr} {s : State} {pre : List Op} {a : Answer}
    {rest : List Answer} (he : s.env = List.replicate pre.length .ok ++ a :: rest) :
    (afterAll (accepted i s) pre).answer = a := by
  simp [State.answer, he]

/-- A step of a busy block goes on with its request at step `SEQ` (R14, R71). -/
theorem step_busy {s : State} (h : s.busy = true) :
    step s = finishRequest (perform ((requestSteps s).drop s.seq) s) := by
  unfold step blockStep
  rw [if_pos h]
  rfl

/-- A request found in flight after its first steps goes on with the others, under any script. -/
theorem step_after_wait {i : Instr} {m : Mode} {s : State} {pre post : List Op}
    (hi : i.requestMode = some m) (hm : s.cfg.mode = m) (hs : stepsOf i s = pre ++ post)
    (env : List Answer) :
    step { afterAll (accepted i s) pre with env := env } =
      finishRequest (perform post { afterAll (accepted i s) pre with env := env }) := by
  have hb : (afterAll (accepted i s) pre).busy = true := by simp [accepted_busy_of_request hi]
  have hq : (afterAll (accepted i s) pre).seq = pre.length := by
    simp [accepted_seq_of_request hi]
  have hr : requestSteps (afterAll (accepted i s) pre) = pre ++ post := by
    rw [← hs, ← requestSteps_accepted hi hm]
    simp [requestSteps]
  rw [step_busy (s := { afterAll (accepted i s) pre with env := env }) hb]
  show finishRequest (perform
    ((requestSteps (afterAll (accepted i s) pre)).drop (afterAll (accepted i s) pre).seq) _) = _
  rw [hr, hq, List.drop_left]

/-- What no run of a list of steps writes, whatever it ends in. -/
theorem finishRequest_keeps {ops : List Op} {s t : State}
    (h : finishRequest (perform ops s) = .next t) :
    t.bl = s.bl ∧ t.cfg = s.cfg ∧ t.owner = s.owner ∧ t.live = s.live ∧ t.op = s.op ∧
      t.byte = s.byte ∧ t.isData = s.isData ∧ t.state = s.state := by
  rcases finishRequest_perform h with rfl | ⟨pre, op, post, -, hst⟩
  · simp
  · cases hst <;> simp

/-- What no instruction writes, and the backlight flag it leaves. -/
theorem exec_keeps {i : Instr} {m : Mode} {s t : State} (hi : i.requestMode = some m)
    (h : exec i s = .next t) :
    t.bl = flagAfter s i ∧ t.cfg = s.cfg ∧ t.owner = s.owner ∧ t.live = s.live := by
  rw [exec_request hi (ready_of_exec hi h)] at h
  obtain ⟨h1, h2, h3, h4, -⟩ := finishRequest_keeps h
  simp [h1, h2, h3, h4]

end Sys2Proof.Machine
end

