-- ==== Sys2Proof/Tests/Slice0.lean ====
section
/-! SUPPORT. Small tests, their expected values copied from 95_test_vectors.md or worked out from the
rule named, and one witness for the hypotheses of each obligation. -/

namespace Sys2Proof.Machine.Tests

/-- The state a result goes on in. -/
def after : Result → Option State
  | .next t => some t
  | .fault _ => none
  | .refused _ => none

/-- The refusal a result stops with. -/
def refusal : Result → Option Refusal
  | .next _ => none
  | .fault _ => none
  | .refused r => some r

/-- A block just constructed in a mode, with the vectors' parameters. -/
def fresh (m : Mode) : State := State.construct { Config.standard with mode := m }

/-- The same block with a script of answers. -/
def scripted (m : Mode) (env : List Answer) : State := { fresh m with env := env }

/-- A block with a request in flight and nothing emitted. -/
def midway (m : Mode) : State := { fresh m with busy := true }

/-- A four-bit block waiting in the first hold of a `WRITE`, with a script of answers. -/
def holding (env : List Answer) : State := { midway .fourBit with seq := 6, env := env }

/-- A block with a move of the owner to come. -/
def asked (m : Mode) (mv : OwnerMove) : State := { fresh m with owner := [mv] }

/-- The same, after teardown. -/
def ended (mv : OwnerMove) : State := { asked .i2c mv with live := false }

/-- The trace a result leaves. -/
def traceOf (r : Result) : Option (List Event) := (after r).map State.trace

/-- The arguments of the vectors' construction line, with an address. -/
def argsAt (a : BitVec 8) : ConstructArgs := ⟨.i2c, .suspending, 2, a, 0x01, 0x04, 0x08⟩

/-- The native error of the vectors. -/
def e1 : NativeErr := ⟨0, .inl rfl⟩

/-- A result that goes on in a state with a property. -/
theorem exists_next {r : Result} {P : State → Prop} [DecidablePred P]
    (h : (after r).any (fun t => decide (P t)) = true) : ∃ t, r = .next t ∧ P t := by
  cases r with
  | next t => exact ⟨t, rfl, of_decide_eq_true h⟩
  | fault f => cases h
  | refused f => cases h

/-- A result that stops with a refusal. -/
theorem refused_of {r : Result} {q : Refusal} (h : refusal r = some q) : r = .refused q := by
  cases r with
  | next t => cases h
  | fault f => cases h
  | refused f => exact congrArg _ (Option.some.inj h)

/-! Well-formedness (43_i2c.md R105: `n & 0x0F = 0`). -/

theorem test_ill_formed_nibble_refused : Instr.wellFormed (.wrnibI2c 0x41 true) = false := by decide

theorem test_well_formed_nibble : Instr.wellFormed (.wrnibI2c 0x40 true) = true := by decide

/-! Decoding: words written out bit by bit from 30_encoding.md R50, R58. -/

theorem test_decode_write4 : decode .fourBit 0b0_1_01000001 = .ok (.write4 0x41 true) := by rfl

theorem test_decode_setbl4 : decode .fourBit 0b1_1_00000000 = .ok (.setbl4 true) := by rfl

theorem test_decode_write8 : decode .eightBit 0b0_0_10100101 = .ok (.write8 0xA5 false) := by rfl

theorem test_decode_setbl8 : decode .eightBit 0b1_0_00000000 = .ok (.setbl8 false) := by rfl

theorem test_decode_writeI2c : decode .i2c 0b0_0_10000000 = .ok (.writeI2c 0x80 false) := by rfl

theorem test_decode_setblI2c : decode .i2c 0b1_0_00000000 = .ok (.setblI2c false) := by rfl

/-- 95_test_vectors.md V12. -/
theorem test_decode_reserved : decode .i2c 0b1_0_00000001 = .error .reservedByte := by rfl

theorem test_decodeTableWord : decodeTableWord 16 0x141 = some (.writeI2c 0x41 true) := by rfl

theorem test_internal_forms_have_no_word :
    encode .pulse = none ∧ encode (.wrnibI2c 0x40 true) = none ∧ decodeTableWord 0 0 = none := by
  decide

/-- 30_encoding.md R62. -/
theorem test_text : Instr.text (.write4 0x4D true) = some "WRITE 0x4D, 1" := by decide

/-! One test or two for each instruction. -/

/-- 95_test_vectors.md V1, `WRITE 0x41, 1`. -/
theorem test_write4_trace : traceOf (exec (.write4 0x41 true) (fresh .fourBit)) = some
    [.pin .rs true, .pin .d4 false, .pin .d5 false, .pin .d6 true, .pin .d7 false,
     .pin .en true, .delay 2, .pin .en false,
     .pin .d4 true, .pin .d5 false, .pin .d6 false, .pin .d7 false,
     .pin .en true, .delay 2, .pin .en false, .pin .rs false, .done .ok] := by decide

/-- 95_test_vectors.md V5, the row of `SEQ` 9. -/
theorem test_write4_failure :
    (after (exec (.write4 0x41 true)
      (scripted .fourBit (List.replicate 9 Answer.ok ++ [Answer.fail e1])))).map State.lines =
    some { Lines.unknown with rs := .known true, en := .known false, d7 := .known false,
                              d6 := .known true, d5 := .x, d4 := .known true } := by rfl

/-- 95_test_vectors.md V9. -/
theorem test_setbl4 : traceOf (exec (.setbl4 true) (scripted .fourBit [.fail e1])) =
    some [.done .ok] := by decide

/-- 95_test_vectors.md V2, `WRITE 0xA5, 0`. -/
theorem test_write8_trace : traceOf (exec (.write8 0xA5 false) (fresh .eightBit)) = some
    [.pin .rs false, .pin .d0 true, .pin .d1 false, .pin .d2 true, .pin .d3 false,
     .pin .d4 false, .pin .d5 true, .pin .d6 false, .pin .d7 true,
     .pin .en true, .delay 2, .pin .en false, .done .ok] := by decide

/-- 95_test_vectors.md V8, the row of the eight-bit hold delay. -/
theorem test_write8_cancelled :
    (after (exec (.write8 0x41 true)
      (scripted .eightBit (List.replicate 10 Answer.ok ++ [Answer.cancel])))).map
        (fun t => (t.lines.en, t.lines.d6, t.cancelled, t.busy, responses t.trace)) =
    some (.known true, .known true, true, false, []) := by rfl

/-- 95_test_vectors.md V9. -/
theorem test_setbl8 : traceOf (exec (.setbl8 false) (fresh .eightBit)) = some [.done .ok] := by decide

/-- 95_test_vectors.md E1. -/
theorem test_writeI2c_trace : traceOf (exec (.writeI2c 0x41 true) (fresh .i2c)) = some
    [.bus 0x27 [0x49, 0x4D], .delay 2, .bus 0x27 [0x49],
     .bus 0x27 [0x19, 0x1D], .delay 2, .bus 0x27 [0x19], .done .ok] := by decide

/-- 95_test_vectors.md V8, the row of `SEQ` 4. -/
theorem test_writeI2c_cancelled :
    (after (exec (.writeI2c 0x41 true)
      (scripted .i2c (List.replicate 4 Answer.ok ++ [Answer.cancel])))).map State.pexp =
    some (.known 0x1D) := by rfl

/-- 95_test_vectors.md V9, `SETBL 0` in `I2C` mode. -/
theorem test_setblI2c_trace : traceOf (exec (.setblI2c false) (fresh .i2c)) = some
    [.bus 0x27 [0x00, 0x04], .delay 2, .bus 0x27 [0x00],
     .bus 0x27 [0x00, 0x04], .delay 2, .bus 0x27 [0x00], .done .ok] := by decide

/-- 95_test_vectors.md P6: the stored flag survives the failure. -/
theorem test_setblI2c_failure :
    (after (exec (.setblI2c false) (scripted .i2c [.fail e1]))).map
      (fun t => (t.bl, t.pexp, t.failed, t.trace)) =
    some (false, .x, true,
      [.busFail 0x27 [0x00, 0x04] e1, .done (.err .i2c e1)]) := by rfl

/-- 43_i2c.md R105, the example. -/
theorem test_wrnibI2c_trace : traceOf (exec (.wrnibI2c 0x40 true) (midway .i2c)) = some
    [.bus 0x27 [0x49, 0x4D], .delay 2, .bus 0x27 [0x49]] := by decide

/-- 40_contract.md R74. -/
theorem test_pulse_trace : traceOf (exec .pulse (midway .eightBit)) = some
    [.pin .en true, .delay 2, .pin .en false] := by decide

/-! Completion words, the latch trace, reset and the step. -/

/-- 95_test_vectors.md V10. -/
theorem test_completion_words :
    (Completion.err (.line .d6) e1).word = 0x18 ∧ (Completion.err .i2c e1).word = 0x1A ∧
    (Completion.err (.line .rs) e1).word = 0x10 ∧ Completion.ok.word = 0x00 := by decide

/-- 95_test_vectors.md V3, four of the cells. -/
theorem test_expander_bytes :
    expanderByte .standard 0xF0 true true = 0xF9 ∧ expanderByte .standard 0x50 false true = 0x58 ∧
    assertByte .standard 0xA1 = 0xA5 ∧ readBack .standard 0x4D = ⟨true, true, true, 4⟩ := by
  decide

/-- 95_test_vectors.md P5: the byte that lowers enable after the cancellation. -/
theorem test_latch_of_changing_byte :
    latchTrace .standard [.bus 0x27 [0x19, 0x1D], .cancelled (.delayMs 2), .bus 0x27 [0x00, 0x04]] =
    [⟨.x, [.known false, .known false, .known false, .x]⟩] := by decide

/-- 10_state.md R23. -/
theorem test_reset : State.reset.bl = true ∧ State.reset.busy = false ∧
    State.reset.lines = .unknown ∧ State.reset.pexp = .x ∧ State.reset.trace = [] := by decide

/-- The word of E1, placed at reset, runs as the first request. -/
theorem test_first_request : traceOf (step (State.reset.withFetchWord 16 0x141)) = some
    [.bus 0x27 [0x49, 0x4D], .delay 2, .bus 0x27 [0x49],
     .bus 0x27 [0x19, 0x1D], .delay 2, .bus 0x27 [0x19], .done .ok] := by decide

/-- 95_test_vectors.md V12: 0x80 is no address. -/
theorem test_construct_refused :
    refusal (step (ended (.construct (argsAt 0x80)))) = some .addressNotSevenBits := by rfl

/-- 00_scope.md R5: two equal masks are not legal. -/
theorem test_construct_equal_masks :
    refusal (step (ended (.construct { argsAt 0x27 with enBit := 0x01 }))) =
      some .masksNotLegal := by rfl

/-- 70_reset_and_hazards.md R147, R148. -/
theorem test_owner_refusals :
    refusal (step (asked .i2c (.construct (argsAt 0x27)))) = some .resourcesOwned ∧
    refusal (takeTeardown (midway .i2c)) = some .teardownWhileBusy := by decide

/-! Witnesses: for each obligation with hypotheses, a state and operands that meet all of them. -/

theorem test_witness_ReservedRequestsHaveNoStep :
    (0x1FF : ReqWord).getLsbD 9 = false ∧
    ((asked .i2c (.request 0x201)).live = true ∧ (asked .i2c (.request 0x201)).busy = false ∧
      (asked .i2c (.request 0x201)).owner = .request 0x201 :: [] ∧
      (0x201 : ReqWord).getLsbD 9 = true ∧ (0x201 : ReqWord).extractLsb' 0 8 ≠ 0) ∧
    (0x3FF : ReqWord).getLsbD 9 = true ∧ (0x3FF : ReqWord).extractLsb' 0 8 ≠ 0 := by decide

theorem test_witness_CompletionWordsNameThePort :
    [Port.line .rs, .line .en, .line .d0, .line .d1, .line .d2, .line .d3, .line .d4, .line .d5,
      .line .d6, .line .d7, .i2c][0]? = some (Port.line .rs) ∧
    [Port.line .rs, .line .en, .line .d0, .line .d1, .line .d2, .line .d3, .line .d4, .line .d5,
      .line .d6, .line .d7, .i2c][10]? = some Port.i2c ∧
    (Completion.ok.word = Completion.ok.word ∧ Completion.ok.native = Completion.ok.native) := by
  decide

theorem test_witness_PresentationsPutEachBitOnItsLine :
    [Pin.d4, .d5, .d6, .d7][0]? = some Pin.d4 ∧ [Pin.d4, .d5, .d6, .d7][3]? = some Pin.d7 ∧
    [Pin.d0, .d1, .d2, .d3, .d4, .d5, .d6, .d7][0]? = some Pin.d0 ∧
    [Pin.d0, .d1, .d2, .d3, .d4, .d5, .d6, .d7][7]? = some Pin.d7 := by decide

theorem test_witness_NibblesSitInUpperBitPosition : (0 < 4) ∧ (3 < 4) := by decide

theorem test_witness_ExpanderByteComposition :
    Config.standard.masksLegal = true ∧ (0xF0 : Byte) &&& 0x0F = 0 ∧ (0 : Byte) &&& 0x0F = 0 ∧
    ({ Config.standard with rsBit := 8, enBit := 1, blBit := 2 } : Config).masksLegal = true ∧
    expanderByte .standard 0xF0 true false = expanderByte .standard 0xF0 true false := by decide

theorem test_witness_ReadingBackInvertsTheExpanderByte : Config.standard.masksLegal = true := by
  decide

theorem test_witness_Write4CompletesWithBothNibbles :
    (fresh .fourBit).ready .fourBit ∧ (fresh .fourBit).answersOk (if true then 16 else 15) ∧
    (fresh .fourBit).answersOk (if false then 16 else 15) := by decide

theorem test_witness_Write4PropertiesOfTheContract :
    (∃ t, exec (.write4 0x41 true) (fresh .fourBit) = .next t ∧
      (fresh .fourBit).ready .fourBit ∧ (fresh .fourBit).answersOk 16 ∧ 1 ≤ 1 ∧ 15 ≤ 15 ∧
      (fresh .fourBit).newEvents t = t.trace.take 5 ++ Event.pin .en true :: t.trace.drop 6) ∧
    ((scripted .fourBit [.ok, .ok, .ok, .fail e1]).ready .fourBit ∧ 3 < 5 ∧
      (requestEvents (scripted .fourBit [.ok, .ok, .ok, .fail e1]) (.write4 0x41 true))[3]? =
        some (.pin .d6 true) ∧
      (scripted .fourBit [.ok, .ok, .ok, .fail e1]).env =
        List.replicate 3 Answer.ok ++ Answer.fail e1 :: []) :=
  ⟨exists_next (by decide), by decide⟩

theorem test_witness_Write8CompletesWithTheByte :
    (fresh .eightBit).ready .eightBit ∧ (fresh .eightBit).answersOk (if true then 13 else 12) ∧
    (fresh .eightBit).answersOk (if false then 13 else 12) := by decide

theorem test_witness_WriteI2cCompletesWithBothNibbles :
    (fresh .i2c).ready .i2c ∧ (fresh .i2c).answersOk 6 := by decide

theorem test_witness_I2cTransactionsRaiseEnableInTheirLastByte :
    (∃ t, exec (.writeI2c 0x41 true) (fresh .i2c) = .next t ∧ (fresh .i2c).ready .i2c ∧
      (fresh .i2c).cfg.masksLegal = true ∧ (fresh .i2c).answersOk 6) ∧
    (∃ t, exec (.setblI2c false) (fresh .i2c) = .next t ∧ True) ∧
    (∃ t, exec (.writeI2c 0 false) (fresh .i2c) = .next t ∧
      Instr.requestMode (.writeI2c 0 false) = some .i2c ∧
      ∀ v, Instr.writeI2c 0 false ≠ .setblI2c v) :=
  ⟨exists_next (by decide), exists_next (by decide), exists_next (by decide)⟩

theorem test_witness_SetblI2cStoresAndPushesTheFlag :
    (fresh .i2c).ready .i2c ∧ (fresh .i2c).answersOk 6 := by decide

theorem test_witness_Setbl4OnlyCompletes : (fresh .fourBit).ready .fourBit := by decide

theorem test_witness_Setbl8OnlyCompletes : (fresh .eightBit).ready .eightBit := by decide

theorem test_witness_PulseRaisesHoldsAndLowers :
    (midway .fourBit).inFlight [.fourBit, .eightBit] ∧
    (midway .eightBit).inFlight [.fourBit, .eightBit] ∧ (midway .fourBit).answersOk 3 := by decide

theorem test_witness_WrnibI2cSendsOneNibble :
    (midway .i2c).inFlight [.i2c] ∧ (midway .i2c).answersOk 3 := by decide

/-- The first and the last step that can fail, in both modes. -/
theorem test_witness_ParallelWriteFailureAtEachStep :
    (∀ k ∈ [(0, Pin.rs, true), (15, Pin.rs, false)],
      let s := scripted .fourBit (List.replicate k.1 Answer.ok ++ Answer.fail e1 :: [])
      s.ready .fourBit ∧ (requestEvents s (.write4 0x41 true))[k.1]? = some (.pin k.2.1 k.2.2) ∧
        s.env = List.replicate k.1 Answer.ok ++ Answer.fail e1 :: []) ∧
    (∀ k ∈ [(0, Pin.rs, true), (12, Pin.rs, false)],
      let s := scripted .eightBit (List.replicate k.1 Answer.ok ++ Answer.fail e1 :: [])
      s.ready .eightBit ∧ (requestEvents s (.write8 0x41 true))[k.1]? = some (.pin k.2.1 k.2.2) ∧
        s.env = List.replicate k.1 Answer.ok ++ Answer.fail e1 :: []) := by decide

theorem test_witness_I2cFailureAtEachBusWrite :
    let s := scripted .i2c (List.replicate 5 Answer.ok ++ Answer.fail e1 :: [])
    Instr.requestMode (.writeI2c 0x41 true) = some .i2c ∧ s.ready .i2c ∧
    (requestEvents s (.writeI2c 0x41 true))[5]? = some (.bus 0x27 [0x19]) ∧
    (requestEvents s (.setblI2c true))[0]? = some (.bus 0x27 [0x08, 0x0C]) ∧
    s.env = List.replicate 5 Answer.ok ++ Answer.fail e1 :: [] := by decide

theorem test_witness_FirstFailureEndsTheRequest :
    (∃ t, exec (.write4 0x41 true) (scripted .fourBit [.fail e1]) = .next t ∧
      Instr.requestMode (.write4 0x41 true) = some .fourBit ∧
      (scripted .fourBit [.fail e1]).newEvents t =
        [] ++ Event.pinFail .rs true e1 :: [.done (.err (.line .rs) e1)] ∧
      (scripted .fourBit [.fail e1]).newEvents t =
        [Event.pinFail .rs true e1] ++ Event.done (.err (.line .rs) e1) :: []) ∧
    (∃ t, exec (.setblI2c true) (scripted .i2c [.fail e1]) = .next t ∧
      (scripted .i2c [.fail e1]).newEvents t =
        [] ++ Event.busFail 0x27 [0x08, 0x0C] e1 :: [.done (.err .i2c e1)]) ∧
    (∃ t, step (holding [.ok, .fail e1]) = .next t ∧ (holding [.ok, .fail e1]).busy = true ∧
      (holding [.ok, .fail e1]).newEvents t =
        [.delay 2] ++ Event.pinFail .en false e1 :: [.done (.err (.line .en) e1)]) :=
  ⟨exists_next (by decide), exists_next (by decide), exists_next (by decide)⟩

theorem test_witness_OneCompletionPerRequest :
    (∃ t, exec (.setbl4 true) (fresh .fourBit) = .next t ∧
      Instr.requestMode (.setbl4 true) = some .fourBit) ∧
    (∃ t, step (holding []) = .next t ∧ (holding []).busy = true) :=
  ⟨exists_next (by decide), exists_next (by decide)⟩

theorem test_witness_CancelledHoldLeavesEnableHigh :
    ((scripted .fourBit (List.replicate 6 Answer.ok ++ Answer.cancel :: [])).ready .fourBit ∧
      (scripted .fourBit (List.replicate 6 Answer.ok ++ Answer.cancel :: [])).cfg.exec = .suspending ∧
      (6 = 6 ∨ 6 = 13) ∧ (scripted .fourBit (List.replicate 6 Answer.ok ++ Answer.cancel :: [])).env =
        List.replicate 6 Answer.ok ++ Answer.cancel :: []) ∧
    ((scripted .fourBit (List.replicate 13 Answer.ok ++ Answer.cancel :: [])).env =
        List.replicate 13 Answer.ok ++ Answer.cancel :: []) ∧
    ((scripted .eightBit (List.replicate 10 Answer.ok ++ Answer.cancel :: [])).ready .eightBit ∧
      (scripted .eightBit (List.replicate 10 Answer.ok ++ Answer.cancel :: [])).cfg.exec = .suspending ∧
      (scripted .eightBit (List.replicate 10 Answer.ok ++ Answer.cancel :: [])).env =
        List.replicate 10 Answer.ok ++ Answer.cancel :: []) := by decide

theorem test_witness_CancelledI2cRequestAtEachStep :
    let s := scripted .i2c (List.replicate 5 Answer.ok ++ Answer.cancel :: [])
    (Instr.writeI2c 0x41 true = .writeI2c 0x41 true ∧ true = s.bl ∨
      Instr.writeI2c 0x41 true = .setblI2c true ∧ (0x41 : Byte) = 0 ∧ true = false) ∧
    s.ready .i2c ∧ s.cfg.exec = .suspending ∧
    s.env = List.replicate 5 Answer.ok ++ Answer.cancel :: [] ∧
    (let u := upperImage s.cfg true 0x41 true
     let l := lowerImage s.cfg true 0x41 true
     [Op.busWrite s.cfg.addr [u, u ||| s.cfg.enBit], .delayMs s.cfg.holdMs,
      .busWrite s.cfg.addr [u], .busWrite s.cfg.addr [l, l ||| s.cfg.enBit],
      .delayMs s.cfg.holdMs, .busWrite s.cfg.addr [l]][5]? = some (.busWrite 0x27 [0x19])) := by
  decide

theorem test_witness_ImpossibleAnswersHaveNoStep :
    (∀ a ∈ [Answer.cancel, .stall], (scripted .fourBit [a]).ready .fourBit ∧
      (requestEvents (scripted .fourBit [a]) (.write4 0x41 true))[0]? = some (.pin .rs true) ∧
      (scripted .fourBit [a]).env = List.replicate 0 Answer.ok ++ a :: []) ∧
    (let s := (scripted .i2c [.ok, .cancel]).withExec .blocking
     s.ready .i2c ∧ (requestEvents s (.writeI2c 0 true))[1]? = some (.delay 2) ∧
      (Event.delay 2).suspends = true ∧ s.cfg.exec = .blocking ∧
      s.env = List.replicate 1 Answer.ok ++ Answer.cancel :: []) ∧
    (let s := scripted .i2c [.ok, .fail e1]
     s.ready .i2c ∧ (requestEvents s (.writeI2c 0 true))[1]? = some (.delay 2) ∧
      s.env = List.replicate 1 Answer.ok ++ Answer.fail e1 :: []) := by decide

theorem test_witness_UnansweredRequestHangs :
    let s := scripted .eightBit (List.replicate 10 Answer.ok ++ Answer.stall :: [])
    Instr.requestMode (.write8 1 true) = some .eightBit ∧ s.ready .eightBit ∧
    (requestEvents s (.write8 1 true))[10]? = some (.delay 2) ∧
    (Event.delay 2).suspends = true ∧ s.env = List.replicate 10 Answer.ok ++ Answer.stall :: [] := by decide

theorem test_witness_LateAnswerChangesNothing :
    ∃ t, exec (.writeI2c 1 true) (scripted .i2c [.stall]) = .next t ∧
      Instr.requestMode (.writeI2c 1 true) = some .i2c ∧ (scripted .i2c [.stall]).ready .i2c ∧
      (scripted .i2c [.stall]).env = List.replicate 0 Answer.ok ++ Answer.stall :: [] ∧ t.busy = true :=
  exists_next (by decide)

theorem test_witness_ExecutionModelsAgree :
    (∃ t : State, step ((asked .i2c (.request 0x141)).withExec .blocking) = .next t ∧
      t = t.withExec .blocking ∧ (asked .i2c (.request 0x141)).keepsItsBlock = true ∧
      .cancel ∉ (asked .i2c (.request 0x141)).env) ∧
    step ((asked .i2c (.request 0x201)).withExec .blocking) = .refused .reservedRequest :=
  ⟨exists_next (by decide), refused_of (by decide)⟩

theorem test_witness_OnlySetblAndConstructionWriteBacklight :
    ∃ t, step (asked .i2c (.request 0x200)) = .next t ∧
      t.bl ≠ (asked .i2c (.request 0x200)).bl := exists_next (by decide)

theorem test_witness_EveryBusByteCarriesTheStoredFlag :
    (∃ t, step (asked .i2c (.request 0x141)) = .next t ∧
      (asked .i2c (.request 0x141)).keepsItsBlock = true ∧
      (asked .i2c (.request 0x141)).cfg.mode = .i2c ∧
      (asked .i2c (.request 0x141)).cfg.masksLegal = true ∧
      Event.bus 0x27 [0x19] ∈ (asked .i2c (.request 0x141)).newEvents t ∧
      (0x19 : Byte) ∈ (Event.bus 0x27 [0x19]).busBytes) ∧
    (∃ t, exec (.setblI2c false) (fresh .i2c) = .next t ∧
      (after (exec (.setblI2c true) t)).any (fun u =>
        (after (exec (.writeI2c 0x41 true) u)).any (fun w =>
          decide (Event.bus 0x27 [0x19] ∈ u.newEvents w))) = true) ∧
    (∀ w rest, (asked .i2c (.request 0x141)).owner = .request w :: rest →
      w.getLsbD 9 = false) ∧
    (∃ t, exec (.writeI2c 0 false) (fresh .i2c) = .next t ∧ True) :=
  ⟨exists_next (by decide), exists_next (by decide), fun w _ h => by cases h; decide,
    exists_next (by decide)⟩

theorem test_witness_SetblIsIdempotentOnTheWire :
    ∃ t, exec (.setblI2c false) (fresh .i2c) = .next t ∧ (fresh .i2c).ready .i2c ∧
      (fresh .i2c).answersOk 12 ∧ (after (exec (.setblI2c false) t)).isSome = true :=
  exists_next (by decide)

theorem test_witness_NativeErrorsAreNeverInspected :
    (∃ t, step { asked .i2c (.request 0x141) with env := [.fail e1] } = .next t ∧ True) ∧
    step (asked .i2c (.request 0x201)) = .refused .reservedRequest :=
  ⟨exists_next (by decide), refused_of (by decide)⟩

theorem test_witness_ShadowsAndGhostFlagsAreNeverRead :
    ∃ t, step (asked .i2c (.request 0x141)) = .next t ∧
      (asked .i2c (.request 0x141)).keepsItsBlock = true := exists_next (by decide)

theorem test_witness_StepKeepsTheRecordOfTheTrace :
    ∃ t, step (asked .i2c (.request 0x141)) = .next t ∧
      (asked .i2c (.request 0x141)).recordsItsTrace := exists_next (by decide)

theorem test_witness_StepKeepsTheTraceLegal :
    ∃ t, step (asked .fourBit (.request 0x141)) = .next t ∧
      (asked .fourBit (.request 0x141)).traceLegal := exists_next (by decide)

theorem test_witness_StepKeepsTheBlockAtRest :
    (∃ t, step (asked .eightBit (.request 0x141)) = .next t ∧ True) ∧
      (asked .eightBit (.request 0x141)).atRest :=
  ⟨exists_next (by decide), by decide, by decide,
    fun _ _ => ⟨fun _ => by decide, fun h => absurd h (by decide)⟩, fun h => absurd h (by decide)⟩

theorem test_witness_ConstructedBlocksMeetTheInvariants : Config.standard.wf = true := by decide

/-- 95_test_vectors.md V12: 0x7F is an address. -/
theorem test_witness_ConstructionLeavesTheResetState :
    (ended (.construct (argsAt 0x7F))).live = false ∧
    (ended (.construct (argsAt 0x7F))).busy = false ∧
    (ended (.construct (argsAt 0x7F))).owner = .construct (argsAt 0x7F) :: [] ∧
    (argsAt 0x7F).config.wf = true ∧ ((argsAt 0x7F).mode = .i2c → (argsAt 0x7F).addr ≤ 0x7F) := by
  decide

theorem test_witness_AddressesAboveSevenBitsAreRefused :
    (ended (.construct (argsAt 0x80))).live = false ∧
    (ended (.construct (argsAt 0x80))).busy = false ∧
    (ended (.construct (argsAt 0x80))).owner = .construct (argsAt 0x80) :: [] ∧
    (argsAt 0x80).mode = .i2c ∧ 0x80 ≤ (argsAt 0x80).addr := by decide

theorem test_witness_TeardownEndsTheBlock :
    (asked .i2c .teardown).live = true ∧ (asked .i2c .teardown).busy = false ∧
    (asked .i2c .teardown).owner = .teardown :: [] := by decide

theorem test_witness_StepRunsTheDecodedRequest :
    (asked .i2c (.request 0x300)).live = true ∧ (asked .i2c (.request 0x300)).busy = false ∧
    (asked .i2c (.request 0x300)).owner = .request 0x300 :: [] ∧
    decode (asked .i2c (.request 0x300)).cfg.mode 0x300 = .ok (.setblI2c true) :=
  ⟨rfl, rfl, rfl, rfl⟩

theorem test_witness_IdleBlockWaitsForTheOwner :
    State.reset.busy = false ∧ State.reset.owner = [] := by decide

theorem test_witness_BusyBlockAcceptsNothing :
    (∃ t, step (midway .i2c) = .next t ∧ (midway .i2c).busy = true) ∧
    (midway .fourBit).live = true ∧ (midway .fourBit).cfg.mode = .fourBit ∧
    Instr.requestMode (.setbl4 true) = some .fourBit := ⟨exists_next (by decide), by decide⟩

theorem test_witness_FormsRunOnlyWhereTheyExist :
    ((fresh .i2c).live = true ∧ Instr.requestMode (.write4 1 true) = some .fourBit ∧
      (fresh .i2c).cfg.mode ≠ .fourBit) ∧
    ((fresh .fourBit).live = true ∧ (fresh .fourBit).busy = false ∧
      (fresh .fourBit).cfg.mode ≠ .i2c) ∧
    ((fresh .i2c).busy = false ∧ (fresh .i2c).cfg.mode = .i2c) ∧
    ((midway .i2c).live = true ∧ (midway .i2c).cfg.mode = .i2c) ∧
    ((midway .eightBit).live = true ∧ (midway .eightBit).cfg.mode ≠ .i2c) := by decide

theorem test_witness_ParametersNeverChange :
    ∃ t, step (asked .i2c .teardown) = .next t ∧ (asked .i2c .teardown).keepsItsBlock = true :=
  exists_next (by decide)

theorem test_witness_EveryInstructionKeepsTheRest :
    ∃ t, exec (.writeI2c 1 true) { fresh .i2c with failed := true, cancelled := true } = .next t ∧
      True := exists_next (by decide)

theorem test_witness_ParallelFormsFrame :
    (∃ t, exec (.write4 1 true) (fresh .fourBit) = .next t ∧ True) ∧
    (∃ t, exec (.write8 1 true) (fresh .eightBit) = .next t ∧ True) ∧
    (∃ t, exec (.setbl4 true) (fresh .fourBit) = .next t ∧ True) ∧
    (∃ t, exec (.setbl8 true) (fresh .eightBit) = .next t ∧ True) ∧
    (∃ t, exec (.pulse) (midway .fourBit) = .next t ∧ True) :=
  ⟨exists_next (by decide), exists_next (by decide), exists_next (by decide),
    exists_next (by decide), exists_next (by decide)⟩

theorem test_witness_I2cFormsFrame :
    (∃ t, exec (.writeI2c 1 true) (fresh .i2c) = .next t ∧ True) ∧
    (∃ t, exec (.setblI2c true) (fresh .i2c) = .next t ∧ True) ∧
    (∃ t, exec (.wrnibI2c 0x40 true) (midway .i2c) = .next t ∧ True) :=
  ⟨exists_next (by decide), exists_next (by decide), exists_next (by decide)⟩

theorem test_witness_NothingIsWrittenUnderAHighEnable :
    (∃ t, exec .pulse (midway .fourBit) = .next t ∧ (midway .fourBit).cfg.mode ≠ .i2c ∧
      (midway .fourBit).newEvents t = [] ++ Event.pin .en true :: [.delay 2, .pin .en false]) ∧
    (∃ t, step (holding []) = .next t ∧ (holding []).cfg.mode ≠ .i2c ∧ (holding []).busy = true ∧
      (holding []).waitsAtSuspension ∧
      (holding []).newEvents t = t.trace.take 6 ++ Event.pin .en true :: t.trace.drop 7) :=
  ⟨exists_next (by decide), exists_next (by decide)⟩

theorem test_witness_Write4LatchesBothNibbles :
    ∃ t, exec (.write4 0x41 true) (fresh .fourBit) = .next t ∧ (fresh .fourBit).ready .fourBit ∧
      (fresh .fourBit).recordsItsTrace ∧ (fresh .fourBit).lines.en ≠ .known true ∧
      (fresh .fourBit).answersOk 16 := exists_next (by decide)

theorem test_witness_Write8LatchesTheByte :
    ∃ t, exec (.write8 0x41 true) (fresh .eightBit) = .next t ∧ (fresh .eightBit).ready .eightBit ∧
      (fresh .eightBit).recordsItsTrace ∧ (fresh .eightBit).lines.en ≠ .known true ∧
      (fresh .eightBit).answersOk 13 := exists_next (by decide)

theorem test_witness_I2cRequestsLatchTheirNibbles :
    (∃ t, exec (.setblI2c true) (fresh .i2c) = .next t ∧ (fresh .i2c).ready .i2c ∧
      (fresh .i2c).cfg.masksLegal = true ∧ (fresh .i2c).recordsItsTrace ∧
      (fresh .i2c).answersOk 6) ∧
    (∀ y, (fresh .i2c).pexp = .known y → hasMask y (fresh .i2c).cfg.enBit = false) ∧
    (Instr.setblI2c true = .writeI2c 0 false ∨
      ∃ v, Instr.setblI2c true = .setblI2c v ∧ (0 : Byte) = 0 ∧ false = false) :=
  ⟨exists_next (by decide), nofun, .inr ⟨true, rfl, rfl, rfl⟩⟩

theorem test_witness_OperationCountsOfEachRequest :
    ∃ t, exec (.write8 0x41 true) (fresh .eightBit) = .next t ∧
      Instr.requestMode (.write8 0x41 true) = some .eightBit ∧
      (fresh .eightBit).answersOk 16 := exists_next (by decide)

/-- A block that is live; and after teardown, two equal masks and a mask of two bits. -/
theorem test_witness_ConstructionsOnOwnedResourcesOrBadMasksAreRefused :
    ((asked .i2c (.construct (argsAt 0x27))).busy = false ∧
      (asked .i2c (.construct (argsAt 0x27))).owner = .construct (argsAt 0x27) :: [] ∧
      (asked .i2c (.construct (argsAt 0x27))).live = true) ∧
    (∀ a ∈ [{ argsAt 0x7F with enBit := 0x01 }, { argsAt 0x00 with blBit := 0x0A }],
      (ended (.construct a)).busy = false ∧ (ended (.construct a)).owner = .construct a :: [] ∧
      (ended (.construct a)).live = false ∧ a.mode = .i2c ∧ a.addr ≤ 0x7F ∧
      ((∃ x ∈ [a.rsBit, a.enBit, a.blBit], x ∉ [0x01, 0x02, 0x04, 0x08]) ∨
        a.rsBit = a.enBit ∨ a.rsBit = a.blBit ∨ a.enBit = a.blBit)) := by decide

/-- A run with a teardown left to do, and one with the next construction left. -/
theorem test_witness_EndedRunStaysEnded :
    (∃ t, step (asked .i2c .teardown) = .next t ∧ (asked .i2c .teardown).runEnded) ∧
    (∃ t, step (ended (.construct (argsAt 0x27))) = .next t ∧
      (ended (.construct (argsAt 0x27))).runEnded) :=
  ⟨exists_next (by decide), exists_next (by decide)⟩

end Sys2Proof.Machine.Tests
end

/-! Proofs of the statements about the block's state (10_state.md). -/

namespace Sys2Proof.Machine

/-- A block whose owner's next move is a construction is not kept. -/
theorem State.keepsItsBlock_eq_false_of_construct {s : State} {a : ConstructArgs}
    {rest : List OwnerMove} (h : s.owner = .construct a :: rest) : s.keepsItsBlock = false := by
  simp [State.keepsItsBlock, h]

/-- Settles O45: of the moves a step can make, only a construction writes the parameters (R11). -/
theorem parametersNeverChange : Obligations.ParametersNeverChange := by
  intro s t hkeep hstep
  rcases step_cases hstep with ⟨-, hrun⟩ | ⟨-, -, rfl⟩ |
    ⟨w, rest, i, -, -, -, hdecode, hexec⟩ | ⟨rest, -, -, -, rfl⟩ | ⟨a, rest, -, -, howner, -, -⟩
  · -- the request in flight goes on
    obtain ⟨-, hcfg, -⟩ := finishRequest_keeps hrun
    exact hcfg
  · -- an idle block waits
    rfl
  · -- a request is accepted
    obtain ⟨-, hcfg, -⟩ := exec_keeps (requestMode_of_decode hdecode) hexec
    exact hcfg
  · -- teardown
    rfl
  · -- a construction is excluded
    rw [State.keepsItsBlock_eq_false_of_construct howner] at hkeep
    cases hkeep

end Sys2Proof.Machine

/-! Proofs of the statements about the encoding (30_encoding.md). -/

namespace Sys2Proof.Machine

/-- The mask of `up` and `dn`: eight ones moved up four places, of which four stay (R56). -/
theorem getLsbD_upperMask (i : Nat) :
    (0xF0 : Byte).getLsbD i = (decide (4 ≤ i) && decide (i < 8)) := by
  have hmask : (0xF0 : Byte) = BitVec.allOnes 8 <<< 4 := by decide
  rw [hmask, BitVec.getLsbD_shiftLeft, BitVec.getLsbD_allOnes]
  by_cases h : i < 4
  · simp [h, Nat.not_le.mpr h]
  · have hshift : i < 8 → i - 4 < 8 := by omega
    simpa [h, Nat.not_lt.mp h] using hshift

/-- `up` keeps the bits of a byte from bit 4 up (R56). -/
theorem getLsbD_up (b : Byte) (i : Nat) :
    (up b).getLsbD i = (decide (4 ≤ i) && decide (i < 8) && b.getLsbD i) := by
  rw [up, BitVec.getLsbD_and, getLsbD_upperMask, Bool.and_comm]

/-- `dn` moves the low four bits of a byte up four places (R56). -/
theorem getLsbD_dn (b : Byte) (i : Nat) :
    (dn b).getLsbD i = (decide (4 ≤ i) && decide (i < 8) && b.getLsbD (i - 4)) := by
  rw [dn, BitVec.getLsbD_and, BitVec.getLsbD_shiftLeft, getLsbD_upperMask]
  by_cases h : i < 4
  · simp [h, Nat.not_le.mpr h]
  · simp [h, Nat.not_lt.mp h, Bool.and_comm]

/-- Settles O6: from the bits of `up` and `dn`, read at `4 + i` and at `i` (R56). -/
theorem nibblesSitInUpperBitPosition : Obligations.NibblesSitInUpperBitPosition := by
  refine ⟨fun b i hi => ?_, by decide⟩
  have hlow : ¬ 4 ≤ i := by omega
  have hhigh : 4 + i < 8 := by omega
  rw [getLsbD_up, getLsbD_dn, getLsbD_up, getLsbD_dn]
  simp [hlow, hhigh]

end Sys2Proof.Machine

/-! Proofs of the statements about the contract (40_contract.md): the two execution models (R79). -/

namespace Sys2Proof.Machine

/-- The states of a list of steps changed, its way of ending kept. -/
def Progress.map (f : State → State) : Progress → Progress
  | .running s => .running (f s)
  | .ended s => .ended (f s)
  | .waiting s => .waiting (f s)
  | .refused r => .refused r

/-- The next state of a step changed, its refusals and faults kept. -/
def Result.map (f : State → State) : Result → Result
  | .next s => .next (f s)
  | .fault r => .fault r
  | .refused r => .refused r

/-- A change of states that every single operation respects, as long as `P` holds, is respected by a
list of steps. -/
theorem perform_map {f : State → State} {P : State → Prop}
    (hissue : ∀ op s, P s → issue op (f s) = (issue op s).map f)
    (hkeeps : ∀ op s, P s → P (afterOk s op)) (ops : List Op) {s : State} (hs : P s) :
    perform ops (f s) = (perform ops s).map f := by
  induction ops generalizing s with
  | nil => rfl
  | cons op ops ih =>
    simp only [perform, hissue op s hs]
    cases hi : issue op s with
    | running t =>
      obtain ⟨-, rfl⟩ := issue_running hi
      exact ih (hkeeps op s hs)
    | ended t => rfl
    | waiting t => rfl
    | refused r => rfl

/-- A change of states that the completion `Ok` respects is respected by the end of a request. -/
theorem finishRequest_map {f : State → State} (hok : ∀ s, (f s).completeOk = f s.completeOk)
    (p : Progress) : finishRequest (p.map f) = Result.map f (finishRequest p) := by
  cases p with
  | running s => exact congrArg Host.Outcome.next (hok s)
  | ended s => rfl
  | waiting s => rfl
  | refused r => rfl

/-- A change of states that keeps what acceptance reads is respected by acceptance (R71). -/
theorem whenAccepted_map {f : State → State} {m : Mode} {s : State} {k : Result}
    (hlive : (f s).live = s.live) (hmode : (f s).cfg.mode = s.cfg.mode)
    (hbusy : (f s).busy = s.busy) :
    whenAccepted m (f s) (Result.map f k) = Result.map f (whenAccepted m s k) := by
  simp only [whenAccepted, hlive, hmode, hbusy]
  split
  · rfl
  split
  · rfl
  split <;> rfl

/-- A request form runs its steps where it is accepted, and is refused elsewhere (R58, R71). -/
theorem exec_eq_whenAccepted {i : Instr} {m : Mode} (hi : i.requestMode = some m) (s : State) :
    exec i s = whenAccepted m s (finishRequest (perform (stepsOf i s) (accepted i s))) := by
  cases i <;> cases hi <;> rfl

/-- An idle block without a move of the owner waits. -/
theorem step_idle_nil {s : State} (hb : s.busy = false) (ho : s.owner = []) : step s = .next s := by
  simp [step, blockStep, ownerStep, hb, ho]

/-- An idle block takes the owner's next move (R71, R150). -/
theorem step_idle_cons {s : State} {mv : OwnerMove} {rest : List OwnerMove} (hb : s.busy = false)
    (ho : s.owner = mv :: rest) : step s = takeMove mv { s with owner := rest } := by
  simp [step, blockStep, ownerStep, hb, ho]

section WithExec
variable (x y : ExecModel) (s t : State)

@[simp] theorem State.withExec_live : (s.withExec x).live = s.live := rfl
@[simp] theorem State.withExec_busy : (s.withExec x).busy = s.busy := rfl
@[simp] theorem State.withExec_seq : (s.withExec x).seq = s.seq := rfl
@[simp] theorem State.withExec_answer : (s.withExec x).answer = s.answer := rfl
@[simp] theorem State.withExec_mode : (s.withExec x).cfg.mode = s.cfg.mode := rfl

@[simp] theorem State.withExec_withExec : (s.withExec x).withExec y = s.withExec y := rfl

/-- Two blocks that are the same under one execution model are the same under the other. -/
theorem State.withExec_eq_iff :
    s.withExec x = t.withExec x ↔ s.withExec y = t.withExec y :=
  ⟨fun h => by simpa using congrArg (State.withExec · y) h,
    fun h => by simpa using congrArg (State.withExec · x) h⟩

/-- The step table reads no execution model (R70). -/
theorem requestSteps_withExec : requestSteps (s.withExec x) = requestSteps s := rfl

theorem stepsOf_withExec (i : Instr) : stepsOf i (s.withExec x) = stepsOf i s := by
  cases i <;> rfl

theorem accepted_withExec (i : Instr) :
    accepted i (s.withExec x) = (accepted i s).withExec x := by
  cases i <;> rfl

end WithExec

/-- A script without a cancellation does not answer with one. -/
theorem answer_ne_cancel {s : State} (h : .cancel ∉ s.env) : s.answer ≠ .cancel := by
  unfold State.answer
  cases he : s.env with
  | nil => nofun
  | cons a rest =>
    rintro rfl
    exact h (by simp [he])

/-- Only a cancellation reads the execution model (R77, R130): the operations of a block whose
script has none do the same under both. -/
theorem issue_withExec (x : ExecModel) (op : Op) (s : State) (h : .cancel ∉ s.env) :
    issue op (s.withExec x) = (issue op s).map (State.withExec · x) := by
  have hne := answer_ne_cancel h
  cases op with
  | pinWrite p v =>
    simp only [issue, pinWrite, State.withExec_answer]
    cases s.answer <;> rfl
  | busWrite a bytes =>
    simp only [issue, busWrite, State.withExec_answer]
    cases ha : s.answer with
    | cancel => exact absurd ha hne
    | ok => rfl
    | fail e => rfl
    | stall => rfl
  | delayMs n =>
    simp only [issue, delayMs, State.withExec_answer]
    cases ha : s.answer with
    | cancel => exact absurd ha hne
    | ok => rfl
    | fail e => rfl
    | stall => rfl

/-- The run of a request's steps is the same under both execution models. -/
theorem finishRequest_perform_withExec (x : ExecModel) (ops : List Op) {s : State}
    (h : .cancel ∉ s.env) :
    finishRequest (perform ops (s.withExec x)) =
      Result.map (State.withExec · x) (finishRequest (perform ops s)) := by
  have hkeeps (op : Op) (u : State) (hu : .cancel ∉ u.env) : .cancel ∉ (afterOk u op).env := by
    rw [afterOk_env]
    exact fun hc => hu (List.mem_of_mem_tail hc)
  rw [perform_map (f := (State.withExec · x)) (issue_withExec x) hkeeps ops h]
  exact finishRequest_map (f := (State.withExec · x)) (fun _ => rfl) _

/-- A request form is the same under both execution models, refusals included. -/
theorem exec_withExec {i : Instr} {m : Mode} (hi : i.requestMode = some m) (x : ExecModel)
    {s : State} (h : .cancel ∉ s.env) :
    exec i (s.withExec x) = Result.map (State.withExec · x) (exec i s) := by
  have hrun := finishRequest_perform_withExec x (stepsOf i s) (s := accepted i s) (by simpa using h)
  rw [exec_eq_whenAccepted hi, exec_eq_whenAccepted hi, stepsOf_withExec, accepted_withExec, hrun]
  exact whenAccepted_map (f := (State.withExec · x)) rfl rfl rfl

theorem takeRequest_withExec (w : ReqWord) (x : ExecModel) {s : State} (h : .cancel ∉ s.env) :
    takeRequest w (s.withExec x) = Result.map (State.withExec · x) (takeRequest w s) := by
  cases hl : s.live with
  | false => simp [takeRequest, hl, Result.map]
  | true =>
    cases hd : decode s.cfg.mode w with
    | ok i => simpa [takeRequest, hl, hd] using exec_withExec (requestMode_of_decode hd) x h
    | error e => simp [takeRequest, hl, hd, Result.map]

theorem takeTeardown_withExec (x : ExecModel) (s : State) :
    takeTeardown (s.withExec x) = Result.map (State.withExec · x) (takeTeardown s) := by
  cases hl : s.live with
  | false => simp [takeTeardown, hl, Result.map]
  | true => cases hb : s.busy <;> simp [takeTeardown, hl, hb, Result.map, State.withExec]

/-- With no construction, which writes the execution model, and no cancellation, which reads it, a
step under any execution model is the step of the block itself (R79). -/
theorem step_withExec (x : ExecModel) {s : State} (hkeep : s.keepsItsBlock = true)
    (henv : .cancel ∉ s.env) :
    step (s.withExec x) = Result.map (State.withExec · x) (step s) := by
  cases hb : s.busy with
  | true =>
    rw [step_busy (s := s.withExec x) hb, step_busy hb, requestSteps_withExec, State.withExec_seq]
    exact finishRequest_perform_withExec x _ henv
  | false =>
    cases ho : s.owner with
    | nil =>
      rw [step_idle_nil (s := s.withExec x) hb ho, step_idle_nil hb ho]
      rfl
    | cons mv rest =>
      rw [step_idle_cons (s := s.withExec x) hb ho, step_idle_cons hb ho]
      cases mv with
      | request w => exact takeRequest_withExec w x (s := { s with owner := rest }) henv
      | teardown => exact takeTeardown_withExec x { s with owner := rest }
      | construct a =>
        rw [State.keepsItsBlock_eq_false_of_construct ho] at hkeep
        cases hkeep

/-- Settles O28: under either execution model the step is that of the block itself, with the
execution model put in place; so the two have the same next states and the same refusals (R79). -/
theorem executionModelsAgree : Obligations.ExecutionModelsAgree := by
  intro s hkeep henv
  simp only [step_withExec _ hkeep henv]
  cases step s with
  | next u =>
    refine ⟨fun t => ?_, fun r => ⟨nofun, nofun⟩⟩
    simpa only [Result.map, Host.Outcome.next.injEq] using State.withExec_eq_iff _ _ u t
  | fault e => cases e
  | refused q => exact ⟨fun t => ⟨nofun, nofun⟩, fun r => Iff.rfl⟩

end Sys2Proof.Machine

/-! Proofs of the statements about the four-bit transport (41_fourbit.md). -/

namespace Sys2Proof.Machine

/-- What a longer trace has beyond the trace of the earlier state. -/
theorem State.newEvents_of_trace {s t : State} {l : List Event} (h : t.trace = s.trace ++ l) :
    s.newEvents t = l := by
  simp [State.newEvents, h]

/-- What a request answered `ok` throughout adds to the trace, and the lines it leaves (R72). -/
theorem request_ok_events_lines {i : Instr} {m : Mode} {s t : State} {n : Nat}
    (hi : i.requestMode = some m) (hr : s.ready m) (hlen : (stepsOf i s).length ≤ n)
    (hok : s.answersOk n) (h : exec i s = .next t) :
    s.newEvents t = (stepsOf i s).map Op.event ++ [.done .ok] ∧
      t.lines = ((stepsOf i s).map Op.event).foldl linesAfter s.lines := by
  rw [exec_request_ok hi hr fun a ha => hok a (List.take_subset_take_left _ hlen ha)] at h
  cases h
  exact ⟨State.newEvents_of_trace (by simp), by simp⟩

/-- A failing pin write ends the list of steps with its tagged error (R121, R122). -/
theorem issue_pinWrite_fail {p : Pin} {v : Bool} {e : NativeErr} {s : State}
    (h : s.answer = .fail e) : issue (.pinWrite p v) s =
      .ended (((s.answered.setLine p .x).emit (.pinFail p v e)).raiseIoError (.line p) e) := by
  simp [issue, pinWrite, h]

/-- A pin write that fails after `k` steps answered `ok`: the state its request ends in (R122). -/
theorem exec_request_pinFail {i : Instr} {m : Mode} {s : State} {k : Nat} {p : Pin} {v : Bool}
    {e : NativeErr} {rest : List Answer} (hi : i.requestMode = some m) (hr : s.ready m)
    (hrow : (requestEvents s i)[k]? = some (.pin p v))
    (henv : s.env = List.replicate k Answer.ok ++ Answer.fail e :: rest) :
    exec i s = .next
      ((((afterAll (accepted i s) ((stepsOf i s).take k)).answered.setLine p .x).emit
        (.pinFail p v e)).raiseIoError (.line p) e) := by
  obtain ⟨pre, op, post, hsteps, rfl, hop, -⟩ := stepsOf_split hi hrow
  have hpre : (stepsOf i s).take pre.length = pre := by rw [hsteps, List.take_left]
  have hans := answer_after_oks (i := i) henv
  rw [exec_request_at hi hr hsteps henv, perform_cons_break (by simp [hans]), hpre]
  cases op with
  | pinWrite q w =>
    cases hop
    rw [issue_pinWrite_fail hans]
    rfl
  | busWrite a bytes => cases hop
  | delayMs n => cases hop

/-- The events of steps answered `ok` deliver nothing on `RESP` (R15). -/
theorem responses_map_event (ops : List Op) : responses (ops.map Op.event) = [] := by
  have hnone (op : Op) : op.event.response = none := by cases op <;> rfl
  simp [responses, hnone]

theorem responses_append (xs ys : List Event) :
    responses (xs ++ ys) = responses xs ++ responses ys := List.filterMap_append

/-- Register-select keeps its level over steps that do not write it (R16). -/
theorem foldl_linesAfter_rs {ops : List Op} (h : ∀ v, .pinWrite .rs v ∉ ops) (l : Lines) :
    ((ops.map Op.event).foldl linesAfter l).rs = l.rs := by
  induction ops generalizing l with
  | nil => rfl
  | cons op ops ih =>
    rw [List.map_cons, List.foldl_cons, ih fun v hv => h v (List.mem_cons_of_mem op hv)]
    cases op with
    | pinWrite p v =>
      have hp : Pin.rs ≠ p := by
        rintro rfl
        exact h v List.mem_cons_self
      exact Lines.get_set_of_ne l (.known v) hp
    | busWrite a bytes => rfl
    | delayMs n => rfl

/-- A list cut at some occurrence of `a` is cut at the first one, or further on. -/
theorem cut_at_first_or_later {α : Type} {a : α} {xs ys pre post : List α} (hxs : a ∉ xs)
    (h : xs ++ a :: ys = pre ++ a :: post) :
    (pre = xs ∧ post = ys) ∨ ∃ mid, pre = xs ++ a :: mid ∧ ys = mid ++ a :: post := by
  rcases List.append_eq_append_iff.mp h with ⟨as, hpre, has⟩ | ⟨bs, rfl, hbs⟩
  · cases as with
    | nil => simp_all
    | cons b mid => exact .inr ⟨mid, by simp_all⟩
  · cases bs with
    | nil => simp_all
    | cons b bs => exact absurd (by simp_all) hxs

/-- Events without a rising edge of enable begin no pulse (R74). -/
theorem pinPulses_append_of_notMem {xs : List Event} (hold : Millis) (ys : List Event)
    (h : .pin .en true ∉ xs) : pinPulses hold (xs ++ ys) = pinPulses hold ys := by
  induction xs with
  | nil => rfl
  | cons e xs ih =>
    obtain ⟨he, hxs⟩ := List.ne_and_not_mem_of_not_mem_cons h
    simp [pinPulses, ih hxs, Ne.symm he]

/-- A rising edge, the hold and the falling edge are one pulse (R74). -/
theorem pinPulses_pulse (hold : Millis) (ys : List Event) :
    pinPulses hold (.pin .en true :: .delay hold :: .pin .en false :: ys) =
      pinPulses hold ys + 1 := by
  simp [pinPulses, Nat.add_comm]

/-- The steps of `WRITE.4` between its first, which sets register-select, and its last, which
restores it (R88, steps 1 to 14). -/
def write4Middle (c : Config) (b : Byte) : List Op :=
  present4 (hi4 b) ++ pulseSteps c ++ present4 (lo4 b) ++ pulseSteps c

theorem write4Steps_eq (c : Config) (b : Byte) (d : Bool) :
    write4Steps c b d = .pinWrite .rs d :: (write4Middle c b ++ restoreRs d) := rfl

theorem write4Steps_length_le (c : Config) (b : Byte) (d : Bool) :
    (write4Steps c b d).length ≤ 16 := by
  cases d <;> simp [write4Steps, present4, pulseSteps, restoreRs]

/-- The events of `WRITE.4` up to the first rising edge: register-select and the upper nibble. -/
def write4Setup (b : Byte) (d : Bool) : List Event :=
  .pin .rs d :: (present4 (hi4 b)).map Op.event

/-- The events of `WRITE.4` after the second pulse: register-select back to low, and `Done(Ok)`. -/
def write4Close (d : Bool) : List Event := (restoreRs d).map Op.event ++ [.done .ok]

/-- The events of a `WRITE.4` that completes (R72, R88). -/
def write4Completed (c : Config) (b : Byte) (d : Bool) : List Event :=
  (write4Steps c b d).map Op.event ++ [.done .ok]

/-- The events of a `WRITE.4` that completes, cut at its two rising edges (R89). -/
theorem write4Completed_eq (c : Config) (b : Byte) (d : Bool) : write4Completed c b d =
      write4Setup b d ++ .pin .en true ::
        (.delay c.holdMs :: .pin .en false :: (present4 (lo4 b)).map Op.event ++ .pin .en true ::
          (.delay c.holdMs :: .pin .en false :: write4Close d)) := by
  cases d <;> rfl

theorem enable_notMem_present4 (n : BitVec 4) (v : Bool) :
    .pin .en v ∉ (present4 n).map Op.event := by
  simp [present4, Op.event]

theorem enable_notMem_write4Setup (b : Byte) (d v : Bool) : .pin .en v ∉ write4Setup b d := by
  simp [write4Setup, enable_notMem_present4]

theorem enable_notMem_write4Close (d v : Bool) : .pin .en v ∉ write4Close d := by
  cases d <;> simp [write4Close, restoreRs, Op.event]

/-- Register-select is at the flag from step 0 to step 14 (R89). -/
theorem write4_rs_at_flag (c : Config) (b : Byte) (d : Bool) (l : Lines) {k : Nat} (h1 : 1 ≤ k)
    (h15 : k ≤ 15) :
    (((write4Completed c b d).take k).foldl linesAfter l).rs = .known d := by
  obtain ⟨j, rfl⟩ := Nat.exists_eq_add_of_le' h1
  have hlen : (write4Middle c b).length = 14 := rfl
  have htake : (write4Completed c b d).take (j + 1) =
      .pin .rs d :: ((write4Middle c b).take j).map Op.event := by
    rw [write4Completed, write4Steps_eq, List.map_cons, List.cons_append,
      List.take_succ_cons, List.map_append, List.append_assoc,
      List.take_append_of_le_length (by simp [hlen]; omega), List.map_take]
    rfl
  have hmiddle : ∀ v, .pinWrite .rs v ∉ write4Middle c b := by
    simp [write4Middle, present4, pulseSteps]
  rw [htake, List.foldl_cons, foldl_linesAfter_rs fun v hv => hmiddle v (List.mem_of_mem_take hv)]
  rfl

/-- Register-select is low at the end (R89). -/
theorem write4_rs_low_at_end (c : Config) (b : Byte) (d : Bool) (l : Lines) :
    (((write4Steps c b d).map Op.event).foldl linesAfter l).rs = .known false := by
  cases d <;> rfl

/-- Two pulses of enable (R89). -/
theorem write4_pinPulses (c : Config) (b : Byte) (d : Bool) :
    pinPulses c.holdMs (write4Completed c b d) = 2 := by
  have hclose := pinPulses_append_of_notMem c.holdMs [] (enable_notMem_write4Close d true)
  rw [List.append_nil] at hclose
  rw [write4Completed_eq, pinPulses_append_of_notMem _ _ (enable_notMem_write4Setup b d true),
    List.cons_append, List.cons_append, pinPulses_pulse,
    pinPulses_append_of_notMem _ _ (enable_notMem_present4 (lo4 b) true), pinPulses_pulse, hclose]
  rfl

/-- Two rising edges of enable (R89). -/
theorem write4_count_rising (c : Config) (b : Byte) (d : Bool) :
    (write4Completed c b d).count (Event.pin .en true) = 2 := by
  simp [write4Completed_eq, List.count_eq_zero_of_not_mem, enable_notMem_write4Setup,
    enable_notMem_present4, enable_notMem_write4Close]

/-- The two places of a rising edge: after the upper nibble, and after the lower one that follows
the first pulse; each is followed by the hold and the falling edge (R89). -/
theorem write4_rising_cases {c : Config} {b : Byte} {d : Bool} {pre post : List Event}
    (h : write4Completed c b d = pre ++ Event.pin .en true :: post) :
    (pre = write4Setup b d ∨
      pre = write4Setup b d ++ .pin .en true :: .delay c.holdMs :: .pin .en false ::
        (present4 (lo4 b)).map Op.event) ∧
    ∃ more, post = .delay c.holdMs :: .pin .en false :: more := by
  rw [write4Completed_eq] at h
  rcases cut_at_first_or_later (enable_notMem_write4Setup b d true) h with
    ⟨rfl, rfl⟩ | ⟨mid, rfl, hlater⟩
  · exact ⟨.inl rfl, _, rfl⟩
  have hsecond : Event.pin .en true ∉
      .delay c.holdMs :: .pin .en false :: (present4 (lo4 b)).map Op.event := by
    simp [enable_notMem_present4]
  rcases cut_at_first_or_later hsecond hlater with ⟨rfl, rfl⟩ | ⟨mid, rfl, hend⟩
  · exact ⟨.inr rfl, _, rfl⟩
  have hthird : Event.pin .en true ∉ .delay c.holdMs :: .pin .en false :: write4Close d := by
    simp [enable_notMem_write4Close]
  exact absurd (by simp [hend]) hthird

/-- Every operation before the fifth of `WRITE.4` leaves enable alone (R88). -/
theorem enable_notMem_write4Steps_take (c : Config) (b : Byte) (d v : Bool) {k : Nat} (hk : k < 5) :
    .pin .en v ∉ ((write4Steps c b d).take k).map Op.event := by
  intro h
  have hsetup : ((write4Steps c b d).take 5).map Op.event = write4Setup b d := rfl
  refine enable_notMem_write4Setup b d v (hsetup ▸ ?_)
  exact List.map_subset _ (List.take_subset_take_left _ hk.le) h

/-- Settles O10: a completed `WRITE.4` has the events of its step table and `Done(Ok)`, cut at the
two rising edges; a failed one has the events before the failing step, the failure and its
`Done(Err)` (R89). -/
theorem write4PropertiesOfTheContract : Obligations.Write4PropertiesOfTheContract := by
  refine ⟨fun b d s t hready hok hexec => ?_, fun b d s k v e rest hready hk hrow henv => ?_⟩
  · obtain ⟨(hnew : s.newEvents t = write4Completed s.cfg b d), hlines⟩ :=
      request_ok_events_lines (i := .write4 b d) rfl hready
        (write4Steps_length_le s.cfg b d) hok hexec
    simp only [hnew, hlines]
    refine ⟨fun k h1 h15 => write4_rs_at_flag s.cfg b d s.lines h1 h15,
      write4_rs_low_at_end s.cfg b d s.lines, write4_pinPulses s.cfg b d,
      write4_count_rising s.cfg b d, fun pre post hcut => ?_⟩
    obtain ⟨rfl | rfl, hpost⟩ := write4_rising_cases hcut
    · -- the first edge: the upper nibble is on the data lines
      have hcount : (write4Setup b d).count (.pin .en true) = 0 :=
        List.count_eq_zero_of_not_mem (enable_notMem_write4Setup b d true)
      exact ⟨⟨rfl, hi4 b, by simp [hcount], rfl, rfl, rfl, rfl⟩, hpost⟩
    · -- the second edge: the lower nibble is
      exact ⟨⟨rfl, lo4 b, by simp, rfl, rfl, rfl, rfl⟩, hpost⟩
  · refine ⟨_, exec_request_pinFail rfl hready hrow henv, ?_⟩
    have hlen : k ≤ (write4Steps s.cfg b d).length := by
      simp only [write4Steps, present4, List.cons_append, List.length_cons]
      omega
    rw [State.newEvents_of_trace (l := ((write4Steps s.cfg b d).take k).map Op.event ++
      [.pinFail .d6 v e, .done (.err (.line .d6) e)]) (by simp [stepsOf])]
    refine ⟨?_, fun w => ?_, by simpa using hlen⟩
    · rw [responses_append, responses_map_event]
      rfl
    · simpa using enable_notMem_write4Steps_take s.cfg b d w hk

end Sys2Proof.Machine

/-! Proofs of the statements about the I2C transport (43_i2c.md). -/

namespace Sys2Proof.Machine

/-- A byte of an operation that stops a list of steps is a byte of the operation itself, delivered or
not: the stop adds the operation's own failure or cancellation, and no other event with a byte
(R122, R130). -/
theorem StopsAt.busBytes {op : Op} {s t : State} (h : StopsAt op s t) :
    ∃ l, t.trace = s.trace ++ l ∧ ∀ ev ∈ l, ∀ y ∈ ev.busBytes, y ∈ op.event.busBytes := by
  cases h with
  | pinFail p v e =>
    exact ⟨[.pinFail p v e, .done (.err (.line p) e)], by simp, by simp [Event.busBytes]⟩
  | busFail a bytes e =>
    exact ⟨[.busFail a bytes e, .done (.err .i2c e)], by simp, by simp [Event.busBytes, Op.event]⟩
  | busCancel a bytes =>
    exact ⟨[.cancelled (.busWrite a bytes)], by simp, by simp [Event.busBytes, Op.event]⟩
  | delayCancel n => exact ⟨[.cancelled (.delayMs n)], by simp, by simp [Event.busBytes]⟩
  | busWait a bytes => exact ⟨[], by simp, by simp⟩
  | delayWait n => exact ⟨[], by simp, by simp⟩

/-- Every byte a run of a list of steps shows on the bus, delivered or not, is a byte of one of the
steps. -/
theorem busBytes_of_finishRequest {ops : List Op} {s t : State} {ev : Event} {y : Byte}
    (h : finishRequest (perform ops s) = .next t) (hev : ev ∈ s.newEvents t)
    (hy : y ∈ ev.busBytes) : ∃ op ∈ ops, y ∈ op.event.busBytes := by
  rcases finishRequest_perform h with rfl | ⟨pre, op, post, rfl, hstop⟩
  · -- every step is done: its events are the steps', and `Done(Ok)` has no byte
    rw [State.newEvents_of_trace (l := ops.map Op.event ++ [.done .ok]) (by simp)] at hev
    rcases List.mem_append.mp hev with hev | hev
    · obtain ⟨o, ho, rfl⟩ := List.mem_map.mp hev
      exact ⟨o, ho, hy⟩
    · rw [List.mem_singleton.mp hev] at hy
      cases hy
  · -- the step `op` stops the list
    obtain ⟨l, htrace, hl⟩ := hstop.busBytes
    rw [State.newEvents_of_trace (l := pre.map Op.event ++ l) (by simp [htrace])] at hev
    rcases List.mem_append.mp hev with hev | hev
    · obtain ⟨o, ho, rfl⟩ := List.mem_map.mp hev
      exact ⟨o, List.mem_append_left _ ho, hy⟩
    · exact ⟨op, by simp, hl ev hev y hy⟩

/-- Every byte of a nibble's two transactions has the backlight bit at the flag (R57, R105). -/
theorem hasMask_blBit_of_mem_wrnibSteps {c : Config} (hc : c.masksLegal = true) {bl d : Bool}
    {n y : Byte} {op : Op} (hn : n &&& 0x0F = 0) (hop : op ∈ wrnibSteps c bl n d)
    (hy : y ∈ op.event.busBytes) : hasMask y c.blBit = bl := by
  obtain ⟨-, -, hx, -, -, hassert⟩ := control_bits hc n d bl hn
  simp only [wrnibSteps, List.mem_cons, List.not_mem_nil, or_false] at hop
  rcases hop with rfl | rfl | rfl
  · -- the assert transaction
    simp only [Op.event, Event.busBytes, List.mem_cons, List.not_mem_nil, or_false] at hy
    rcases hy with rfl | rfl
    · exact hx
    · exact hassert
  · -- the hold
    cases hy
  · -- the deassert transaction
    rw [List.mem_singleton.mp hy]
    exact hx

/-- Every byte of the two nibbles has the backlight bit at the flag (R106). -/
theorem hasMask_blBit_of_mem_writeI2cSteps {c : Config} (hc : c.masksLegal = true) {bl d : Bool}
    {b y : Byte} {op : Op} (hop : op ∈ writeI2cSteps c bl b d)
    (hy : y ∈ op.event.busBytes) : hasMask y c.blBit = bl := by
  rcases List.mem_append.mp hop with hop | hop
  · exact hasMask_blBit_of_mem_wrnibSteps hc (low_bits_up b) hop hy
  · exact hasMask_blBit_of_mem_wrnibSteps hc (low_bits_dn b) hop hy

/-- The step table of a request form of `I2C` mode is that of a write with the flag the request
leaves (R106, R107). -/
theorem stepsOf_i2c {i : Instr} (hi : i.requestMode = some .i2c) (s : State) :
    ∃ b d, stepsOf i s = writeI2cSteps s.cfg (flagAfter s i) b d := by
  cases i <;> cases hi <;> exact ⟨_, _, rfl⟩

/-- In `I2C` mode the request in flight is a write of its latches with the stored flag (R108). -/
theorem requestSteps_i2c {s : State} (hm : s.cfg.mode = .i2c) :
    requestSteps s = writeI2cSteps s.cfg s.bl s.byte s.isData := by
  cases ho : s.op <;> simp only [requestSteps, hm, ho]

/-- Every byte of a run of steps of a write has the backlight bit at the write's flag (R106). -/
theorem finishRequest_i2c_blBit {ops : List Op} {c : Config} {bl d : Bool} {b y : Byte}
    {s t : State} {ev : Event} (hc : c.masksLegal = true) (hops : ops ⊆ writeI2cSteps c bl b d)
    (h : finishRequest (perform ops s) = .next t) (hev : ev ∈ s.newEvents t)
    (hy : y ∈ ev.busBytes) : hasMask y c.blBit = bl := by
  obtain ⟨op, hop, hy'⟩ := busBytes_of_finishRequest h hev hy
  exact hasMask_blBit_of_mem_writeI2cSteps hc (hops hop) hy'

/-- Every byte of a request accepted in `I2C` mode has the backlight bit at the flag the request
leaves, whatever it is answered (R112). -/
theorem exec_i2c_blBit {i : Instr} {s t : State} {ev : Event} {y : Byte}
    (hi : i.requestMode = some .i2c) (hc : s.cfg.masksLegal = true) (h : exec i s = .next t)
    (hev : ev ∈ s.newEvents t) (hy : y ∈ ev.busBytes) : hasMask y s.cfg.blBit = t.bl := by
  obtain ⟨hbl, -⟩ := exec_keeps hi h
  obtain ⟨b, d, hsteps⟩ := stepsOf_i2c hi s
  rw [exec_request hi (ready_of_exec hi h), hsteps] at h
  have hev' : ev ∈ (accepted i s).newEvents t := by rwa [State.newEvents, accepted_trace]
  rw [hbl]
  exact finishRequest_i2c_blBit hc (List.Subset.refl _) h hev' hy

/-- Every byte of a request that goes on in `I2C` mode has the backlight bit at the stored flag
(R112). -/
theorem resume_i2c_blBit {k : Nat} {s t : State} {ev : Event} {y : Byte}
    (hm : s.cfg.mode = .i2c) (hc : s.cfg.masksLegal = true)
    (h : finishRequest (perform ((requestSteps s).drop k) s) = .next t)
    (hev : ev ∈ s.newEvents t) (hy : y ∈ ev.busBytes) : hasMask y s.cfg.blBit = t.bl := by
  obtain ⟨hbl, -⟩ := finishRequest_keeps h
  rw [requestSteps_i2c hm] at h
  rw [hbl]
  exact finishRequest_i2c_blBit hc (List.drop_subset _ _) h hev hy

/-- A move that leaves the trace as it was has no event. -/
theorem State.notMem_newEvents {s t : State} (h : t.trace = s.trace) (ev : Event) :
    ev ∉ s.newEvents t := by
  simp [State.newEvents, h]

/-- Every byte of a step in `I2C` mode has the backlight bit at the flag the step leaves (R112). -/
theorem step_i2c_blBit {s t : State} {ev : Event} {y : Byte} (hkeep : s.keepsItsBlock = true)
    (hm : s.cfg.mode = .i2c) (hc : s.cfg.masksLegal = true) (hstep : step s = .next t)
    (hev : ev ∈ s.newEvents t) (hy : y ∈ ev.busBytes) : hasMask y s.cfg.blBit = t.bl := by
  rcases step_cases hstep with ⟨-, hrun⟩ | ⟨-, -, rfl⟩ |
    ⟨w, rest, i, -, -, -, hdecode, hexec⟩ | ⟨rest, -, -, -, rfl⟩ | ⟨a, rest, -, -, howner, -, -⟩
  · -- the request in flight goes on
    exact resume_i2c_blBit hm hc hrun hev hy
  · -- an idle block waits
    exact absurd hev (State.notMem_newEvents rfl ev)
  · -- a request is accepted
    have hi : i.requestMode = some .i2c := hm ▸ requestMode_of_decode hdecode
    exact exec_i2c_blBit (s := { s with owner := rest }) hi hc hexec hev hy
  · -- teardown
    exact absurd hev (State.notMem_newEvents rfl ev)
  · -- a construction is excluded
    rw [State.keepsItsBlock_eq_false_of_construct howner] at hkeep
    cases hkeep

/-- An accepted `SETBL.I2C` stores its operand (R107). -/
theorem exec_setblI2c_bl {v : Bool} {s t : State} (h : exec (.setblI2c v) s = .next t) :
    t.bl = v := (exec_keeps (i := .setblI2c v) rfl h).1

/-- No other request form stores a flag (R13). -/
theorem flagAfter_of_ne_setblI2c {i : Instr} (hi : ∀ v, i ≠ .setblI2c v) (s : State) :
    flagAfter s i = s.bl := by
  cases i with
  | setblI2c v => exact absurd rfl (hi v)
  | _ => rfl

/-- No other request changes the flag (R110). -/
theorem exec_bl_of_ne_setblI2c {i : Instr} {m : Mode} {s t : State} (hi : i.requestMode = some m)
    (hne : ∀ v, i ≠ .setblI2c v) (h : exec i s = .next t) : t.bl = s.bl := by
  rw [(exec_keeps hi h).1, flagAfter_of_ne_setblI2c hne]

/-- A word whose bit 9 is clear is no `SETBL` (R50). -/
theorem ne_setblI2c_of_decode {m : Mode} {w : ReqWord} {i : Instr} (h9 : w.getLsbD 9 = false)
    (h : decode m w = .ok i) (v : Bool) : i ≠ .setblI2c v := by
  rw [decode, ReqWord.opField, h9, if_neg Bool.false_ne_true] at h
  cases h
  cases m <;> exact nofun

/-- A step that takes no `SETBL` word and constructs no block keeps the flag (R112). -/
theorem step_keeps_bl {s t : State} (hkeep : s.keepsItsBlock = true)
    (hword : ∀ w rest, s.owner = .request w :: rest → w.getLsbD 9 = false)
    (hstep : step s = .next t) : t.bl = s.bl := by
  rcases step_cases hstep with ⟨-, hrun⟩ | ⟨-, -, rfl⟩ |
    ⟨w, rest, i, -, -, howner, hdecode, hexec⟩ | ⟨rest, -, -, -, rfl⟩ |
    ⟨a, rest, -, -, howner, -, -⟩
  · -- the request in flight goes on
    exact (finishRequest_keeps hrun).1
  · -- an idle block waits
    rfl
  · -- a request is accepted
    have hne := ne_setblI2c_of_decode (hword w rest howner) hdecode
    exact exec_bl_of_ne_setblI2c (s := { s with owner := rest }) (requestMode_of_decode hdecode)
      hne hexec
  · -- teardown
    rfl
  · -- a construction is excluded
    rw [State.keepsItsBlock_eq_false_of_construct howner] at hkeep
    cases hkeep

/-- The next write after the flag was set off and then on has the backlight bit set in every byte
(R112). -/
theorem blBit_set_after_off_on {b : Byte} {d : Bool} {s t u w : State} {ev : Event} {y : Byte}
    (hc : s.cfg.masksLegal = true) (hoff : exec (.setblI2c false) s = .next t)
    (hon : exec (.setblI2c true) t = .next u) (hwrite : exec (.writeI2c b d) u = .next w)
    (hev : ev ∈ u.newEvents w) (hy : y ∈ ev.busBytes) : hasMask y s.cfg.blBit = true := by
  obtain ⟨-, hst, -⟩ := exec_keeps (i := .setblI2c false) rfl hoff
  obtain ⟨hubl, htu, -⟩ := exec_keeps (i := .setblI2c true) rfl hon
  obtain ⟨hwbl, -⟩ := exec_keeps (i := .writeI2c b d) rfl hwrite
  have hus : u.cfg = s.cfg := htu.trans hst
  rw [← hus] at hc ⊢
  rw [exec_i2c_blBit (i := .writeI2c b d) rfl hc hwrite hev hy, hwbl]
  exact hubl

/-- Settles O30: the bytes of a step are bytes of the step table, which is computed with the flag
the step leaves (R112). -/
theorem everyBusByteCarriesTheStoredFlag : Obligations.EveryBusByteCarriesTheStoredFlag :=
  ⟨fun _ _ _ _ hkeep hm hc hstep hev hy => step_i2c_blBit hkeep hm hc hstep hev hy,
    fun _ _ _ h => exec_setblI2c_bl h,
    fun _ _ hkeep hword hstep => step_keeps_bl hkeep hword hstep,
    fun b d _ _ h => exec_bl_of_ne_setblI2c (i := .writeI2c b d) rfl nofun h,
    fun _ _ _ _ _ _ _ _ hc hoff hon hwrite hev hy =>
      blBit_set_after_off_on hc hoff hon hwrite hev hy⟩

/-- The bus writes of a completed `WRITE.I2C`: an assert and a deassert transaction for the upper
nibble, then for the lower (R106, R110). -/
theorem filter_busBytes_writeI2c (c : Config) (bl : Bool) (b : Byte) (d : Bool) :
    ((writeI2cSteps c bl b d).map Op.event ++ [Event.done .ok]).filter
        (fun e : Event => e.busBytes ≠ []) =
      [.bus c.addr [expanderByte c (up b) d bl, assertByte c (expanderByte c (up b) d bl)],
        .bus c.addr [expanderByte c (up b) d bl],
        .bus c.addr [expanderByte c (dn b) d bl, assertByte c (expanderByte c (dn b) d bl)],
        .bus c.addr [expanderByte c (dn b) d bl]] := rfl

/-- A completed `WRITE.I2C` makes four bus writes (R110). -/
theorem busWrites_writeI2c (c : Config) (bl : Bool) (b : Byte) (d : Bool) :
    busWrites ((writeI2cSteps c bl b d).map Op.event ++ [Event.done .ok]) = 4 := rfl

/-- Settles O13: the transactions of a completed `WRITE.I2C` are read off its step table, and their
control bits are those of the two expander bytes (R57, R110). -/
theorem i2cTransactionsRaiseEnableInTheirLastByte :
    Obligations.I2cTransactionsRaiseEnableInTheirLastByte := by
  refine ⟨fun b d s t hready hc hok hexec => ?_, fun _ => rfl, fun _ _ _ h => exec_setblI2c_bl h,
    fun _ _ _ _ hi h hne => exec_bl_of_ne_setblI2c hi hne h⟩
  have hnew : s.newEvents t =
      (writeI2cSteps s.cfg s.bl b d).map Op.event ++ [.done .ok] :=
    (request_ok_events_lines (i := .writeI2c b d) rfl hready (Nat.le_refl 6) hok hexec).1
  obtain ⟨-, hu, hubl, -, hu', hubl'⟩ := control_bits hc (up b) d s.bl (low_bits_up b)
  obtain ⟨-, hl, hlbl, -, hl', hlbl'⟩ := control_bits hc (dn b) d s.bl (low_bits_dn b)
  rw [hnew]
  refine ⟨busWrites_writeI2c _ _ _ _, _, _, _, _, _, _, filter_busBytes_writeI2c _ _ _ _,
    hu', hl', hu, hu, hl, hl, ?_⟩
  simp [hubl, hubl', hlbl, hlbl']

end Sys2Proof.Machine

/-! Proofs of the statements about failures and unanswered operations (60_exceptions.md). -/

namespace Sys2Proof.Machine

/-- A list that begins with the events of operations answered `ok`, cut at an event that no such
operation has, is cut after them. -/
theorem cut_after_oks {ops : List Op} {ev : Event} {ys pre post : List Event}
    (hev : ∀ op : Op, op.event ≠ ev) (h : ops.map Op.event ++ ys = pre ++ ev :: post) :
    ∃ mid, pre = ops.map Op.event ++ mid ∧ ys = mid ++ ev :: post := by
  rcases List.append_eq_append_iff.mp h with hcut | ⟨bs, hops, hbs⟩
  · exact hcut
  · cases bs with
    | nil => exact ⟨[], by simpa using hops.symm, hbs.symm⟩
    | cons b bs =>
      -- otherwise `ev` is the event of one of the operations
      obtain ⟨rfl, -⟩ := List.cons_eq_cons.mp hbs
      have hmem : ev ∈ ops.map Op.event := by simp [hops]
      obtain ⟨op, -, hop⟩ := List.mem_map.mp hmem
      exact absurd hop (hev op)

/-- Operations answered `ok` before a move change nothing about how it ends (R122). -/
theorem State.failureIsLast_of_oks_before {ops : List Op} {s u t : State}
    (hnew : s.newEvents t = ops.map Op.event ++ u.newEvents t) (h : u.failureIsLast t) :
    s.failureIsLast t := by
  obtain ⟨hpin, hbus, hdone⟩ := h
  rw [State.failureIsLast, hnew]
  refine ⟨fun pre p v e post hcut => ?_, fun pre a bytes e post hcut => ?_,
    fun pre port e post hcut => ?_⟩
  · obtain ⟨mid, -, hmid⟩ := cut_after_oks (fun op => by cases op <;> nofun) hcut
    exact hpin mid p v e post hmid
  · obtain ⟨mid, -, hmid⟩ := cut_after_oks (fun op => by cases op <;> nofun) hcut
    exact hbus mid a bytes e post hmid
  · obtain ⟨mid, rfl, hmid⟩ := cut_after_oks (fun op => by cases op <;> nofun) hcut
    obtain ⟨hpost, pre', hcause⟩ := hdone mid port e post hmid
    refine ⟨hpost, ops.map Op.event ++ pre', ?_⟩
    rcases hcause with ⟨p, v, rfl, rfl⟩ | ⟨a, bytes, rfl, rfl⟩
    · exact .inl ⟨p, v, rfl, by simp⟩
    · exact .inr ⟨a, bytes, rfl, by simp⟩

/-- A list of two cut at one of its elements. -/
theorem pair_eq_append_cons_iff {α : Type} {a b c : α} {pre post : List α} :
    [a, b] = pre ++ c :: post ↔
      (pre = [] ∧ c = a ∧ post = [b]) ∨ (pre = [a] ∧ c = b ∧ post = []) := by
  cases pre with
  | nil => simp [eq_comm]
  | cons x pre => cases pre <;> simp [eq_comm]

/-- Neither the completion `Ok`, nor a cancellation, nor a wait is a failure (R122, R130, R133). -/
theorem State.failureIsLast_of_no_failure {s t : State} {l : List Event}
    (hl : l = [] ∨ l = [.done .ok] ∨ ∃ op, l = [.cancelled op]) (ht : t.trace = s.trace ++ l) :
    s.failureIsLast t := by
  rw [State.failureIsLast, State.newEvents_of_trace ht]
  rcases hl with rfl | rfl | ⟨op, rfl⟩ <;> simp [List.singleton_eq_append_iff]

/-- A step that is not answered `ok` ends in its failure and the `Done(Err)` for it, or in none
(R122). -/
theorem StopsAt.failureIsLast {op : Op} {s t : State} (h : StopsAt op s t) : s.failureIsLast t := by
  cases h with
  | pinFail p v e =>
    rw [State.failureIsLast, State.newEvents_of_trace
      (l := [.pinFail p v e, .done (.err (.line p) e)]) (by simp)]
    refine ⟨?_, ?_, fun pre port e' post hcut => ?_⟩
    · simp +contextual [pair_eq_append_cons_iff, responses, Event.response]
    · simp [pair_eq_append_cons_iff]
    · obtain ⟨-, hev, -⟩ | ⟨rfl, hev, rfl⟩ := pair_eq_append_cons_iff.mp hcut
      · cases hev
      · cases hev
        exact ⟨rfl, [], .inl ⟨p, v, rfl, rfl⟩⟩
  | busFail a bytes e =>
    rw [State.failureIsLast, State.newEvents_of_trace
      (l := [.busFail a bytes e, .done (.err .i2c e)]) (by simp)]
    refine ⟨?_, ?_, fun pre port e' post hcut => ?_⟩
    · simp [pair_eq_append_cons_iff]
    · simp +contextual [pair_eq_append_cons_iff, responses, Event.response]
    · obtain ⟨-, hev, -⟩ | ⟨rfl, hev, rfl⟩ := pair_eq_append_cons_iff.mp hcut
      · cases hev
      · cases hev
        exact ⟨rfl, [], .inr ⟨a, bytes, rfl, rfl⟩⟩
  | busCancel a bytes =>
    exact State.failureIsLast_of_no_failure (.inr (.inr ⟨.busWrite a bytes, rfl⟩)) (by simp)
  | delayCancel n =>
    exact State.failureIsLast_of_no_failure (.inr (.inr ⟨.delayMs n, rfl⟩)) (by simp)
  | busWait a bytes => exact State.failureIsLast_of_no_failure (.inl rfl) (by simp)
  | delayWait n => exact State.failureIsLast_of_no_failure (.inl rfl) (by simp)

/-- The first step of a list that fails is followed by its own `Done(Err)` alone (R122). -/
theorem finishRequest_failureIsLast {ops : List Op} {s t : State}
    (h : finishRequest (perform ops s) = .next t) : s.failureIsLast t := by
  rcases finishRequest_perform h with rfl | ⟨pre, op, post, -, hstop⟩
  · -- every step is done
    exact State.failureIsLast_of_oks_before (ops := ops) (u := afterAll s ops)
      (by simp [State.newEvents])
      (State.failureIsLast_of_no_failure (.inr (.inl rfl)) (by simp))
  · -- the step `op` stops the list
    obtain ⟨l, htrace, -⟩ := hstop.busBytes
    exact State.failureIsLast_of_oks_before (ops := pre) (u := afterAll s pre)
      (by simp [State.newEvents, htrace]) hstop.failureIsLast

/-- Settles O21: the run of a request's steps, from its acceptance or from its pending step, stops at
the first that fails (R122). -/
theorem firstFailureEndsTheRequest : Obligations.FirstFailureEndsTheRequest := by
  refine ⟨fun i m s t hi h => ?_, fun s t hb h => ?_⟩
  · refine ⟨(exec_keeps hi h).1, ?_⟩
    rw [exec_request hi (ready_of_exec hi h)] at h
    simpa only [State.failureIsLast, State.newEvents, accepted_trace]
      using finishRequest_failureIsLast h
  · rw [step_busy hb] at h
    exact ⟨(finishRequest_keeps h).1, finishRequest_failureIsLast h⟩

/-- An operation at a suspension point that is not answered stays pending, and nothing happens (R80,
R133). -/
theorem issue_stall {op : Op} {s : State} (hop : op.event.suspends = true)
    (h : s.answer = .stall) : issue op s = .waiting s := by
  cases op with
  | pinWrite p v => cases hop
  | busWrite a bytes => simp [issue, busWrite, h]
  | delayMs n => simp [issue, delayMs, h]

/-- A list of steps whose first is at a suspension point and is not answered waits (R80). -/
theorem finishRequest_stall {op : Op} {ops : List Op} {s : State}
    (hop : op.event.suspends = true) (h : s.answer = .stall) :
    finishRequest (perform (op :: ops) s) = .next s := by
  rw [perform_cons_break (by simp [h]), issue_stall hop h]
  rfl

/-- A state that steps to itself is left by no number of steps. -/
theorem run_of_step_self {t : State} (h : step t = .next t) (n : Nat) :
    Sys2Proof.core.run n t = .next t := by
  induction n with
  | zero => rfl
  | succ n ih =>
    have hcore : Sys2Proof.core.step t = .next t := h
    simpa [Host.Core.run, hcore] using ih

/-- Settles O26: the state before the pending step is the one the request waits in, and the step of
that state is the same wait again (R80, R133). -/
theorem unansweredRequestHangs : Obligations.UnansweredRequestHangs := by
  intro i m s k ev rest hi hr hrow hev henv
  obtain ⟨pre, op, post, hsteps, rfl, rfl, hevents⟩ := stepsOf_split hi hrow
  have ⟨_, _, hmode⟩ := hr
  have hans : (afterAll (accepted i s) pre).answer = .stall := answer_after_oks henv
  have hwait : step (afterAll (accepted i s) pre) = .next (afterAll (accepted i s) pre) :=
    (step_after_wait hi hmode hsteps _).trans (finishRequest_stall hev hans)
  refine ⟨afterAll (accepted i s) pre, ?_, ?_, ?_, ?_, ?_, ?_, run_of_step_self hwait⟩
  · rw [exec_request_at hi hr hsteps henv, finishRequest_stall hev hans]
  · simp [accepted_busy_of_request hi]
  · simp [accepted_seq_of_request hi]
  · simp
  · simp
  · simp [hevents]

end Sys2Proof.Machine

/-! Proofs of the statements about the encoding (30_encoding.md): the request words, the completion
words, the presentations and the expander bytes. -/

namespace Sys2Proof.Machine

section RequestWords
variable (op flag : Bool) (byte : Byte)

/-- The bits of a request word: the byte, the flag and the operation above it (R50). -/
theorem ReqWord.getLsbD_ofFields {i : Nat} (hi : i < 10) :
    (ReqWord.ofFields op flag byte).getLsbD i =
      if i < 8 then byte.getLsbD i else if i = 8 then flag else op := by
  rw [ReqWord.ofFields, BitVec.getLsbD_append, BitVec.getLsbD_append, BitVec.getLsbD_ofBool,
    BitVec.getLsbD_ofBool]
  obtain h | rfl | rfl : i < 8 ∨ i = 8 ∨ i = 9 := by omega
  · simp [h]
  · simp
  · simp

/-- The fields of a request word are those it was made of (R50). -/
@[simp] theorem ReqWord.opField_ofFields : (ReqWord.ofFields op flag byte).opField = op :=
  ReqWord.getLsbD_ofFields op flag byte (by decide)

@[simp] theorem ReqWord.flagField_ofFields : (ReqWord.ofFields op flag byte).flagField = flag :=
  ReqWord.getLsbD_ofFields op flag byte (by decide)

@[simp] theorem ReqWord.byteField_ofFields : (ReqWord.ofFields op flag byte).byteField = byte := by
  refine BitVec.eq_of_getLsbD_eq fun i hi => ?_
  have hbit := ReqWord.getLsbD_ofFields op flag byte (i := i) (by omega)
  simpa [ReqWord.byteField, hi] using hbit

end RequestWords

/-- A request word is made of its fields (R50). -/
theorem ReqWord.ofFields_fields (w : ReqWord) :
    ReqWord.ofFields w.opField w.flagField w.byteField = w := by
  refine BitVec.eq_of_getLsbD_eq fun i hi => ?_
  rw [ReqWord.getLsbD_ofFields _ _ _ hi]
  simp only [ReqWord.opField, ReqWord.flagField, ReqWord.byteField]
  obtain h | rfl | rfl : i < 8 ∨ i = 8 ∨ i = 9 := by omega
  · simp [h]
  · simp
  · simp

/-- The word of a `WRITE` form is the same in every mode (R50, R58). -/
theorem encode_writeForm (m : Mode) (b : Byte) (d : Bool) :
    encode (m.writeForm b d) = some (ReqWord.ofFields false d b) := by cases m <;> rfl

/-- The word of a `SETBL` form is the same in every mode (R50, R58). -/
theorem encode_setblForm (m : Mode) (v : Bool) :
    encode (m.setblForm v) = some (ReqWord.ofFields true v 0) := by cases m <;> rfl

/-- The request forms of a mode are its `WRITE` form and its `SETBL` form (R58). -/
theorem form_of_requestMode {i : Instr} {m : Mode} (hi : i.requestMode = some m) :
    (∃ b d, i = m.writeForm b d) ∨ ∃ v, i = m.setblForm v := by
  cases i with
  | write4 b d | write8 b d | writeI2c b d => cases hi; exact .inl ⟨b, d, rfl⟩
  | setbl4 v | setbl8 v | setblI2c v => cases hi; exact .inr ⟨v, rfl⟩
  | wrnibI2c n d | pulse => cases hi

theorem decode_write {m : Mode} {w : ReqWord} (h : w.opField = false) :
    decode m w = .ok (m.writeForm w.byteField w.flagField) := by
  simp [decode, h]

theorem decode_setbl {m : Mode} {w : ReqWord} (h : w.opField = true) (hb : w.byteField = 0) :
    decode m w = .ok (m.setblForm w.flagField) := by
  simp [decode, h, hb]

/-- A `SETBL` word with a byte is reserved (R59). -/
theorem decode_reserved {m : Mode} {w : ReqWord} (h : w.opField = true) (hb : w.byteField ≠ 0) :
    decode m w = .error .reservedByte := by
  rw [decode, if_pos h, if_neg hb]

/-- What the decoder reads from a word has that word (R50, R59). -/
theorem encode_of_decode {m : Mode} {w : ReqWord} {i : Instr} (h : decode m w = .ok i) :
    encode i = some w := by
  have hw := ReqWord.ofFields_fields w
  cases ho : w.opField with
  | false =>
    rw [decode_write ho] at h
    cases h
    rw [encode_writeForm, ← ho, hw]
  | true =>
    by_cases hb : w.byteField = 0
    · rw [decode_setbl ho hb] at h
      cases h
      rw [encode_setblForm, ← ho, ← hb, hw]
    · rw [decode_reserved ho hb] at h
      cases h

/-- The word of a request form is read back as the form (R50, R58). -/
theorem decode_of_encode {m : Mode} {w : ReqWord} {i : Instr} (hi : i.requestMode = some m)
    (h : encode i = some w) : decode m w = .ok i := by
  rcases form_of_requestMode hi with ⟨b, d, rfl⟩ | ⟨v, rfl⟩
  · rw [encode_writeForm] at h
    cases h
    rw [decode_write (by simp)]
    simp
  · rw [encode_setblForm] at h
    cases h
    rw [decode_setbl (by simp) (by simp)]
    simp

/-- Settles O1: a word is made of its fields, so what the decoder reads has that word; the word of a
form has the form's fields, so the decoder reads the form (R50, R58, R59). -/
theorem requestWordsDecodeAndEncodeAgree : Obligations.RequestWordsDecodeAndEncodeAgree :=
  fun _ _ _ => ⟨fun h => ⟨requestMode_of_decode h, encode_of_decode h⟩,
    fun ⟨hi, h⟩ => decode_of_encode hi h⟩

/-- Settles O2: the words of V10 and V12, decoded. -/
theorem vectorWordsDecode : Obligations.VectorWordsDecode :=
  ⟨⟨rfl, rfl, rfl, rfl, rfl, rfl⟩, ⟨rfl, rfl, rfl, rfl, rfl, rfl⟩, ⟨rfl, rfl, rfl, rfl, rfl, rfl⟩,
    fun _ => ⟨rfl, rfl, rfl⟩⟩

/-- Settles O3: the `OP` field decides between the `WRITE` form, which every word with `OP` 0 has,
and the reserved words (R59). -/
theorem reservedRequestsHaveNoStep : Obligations.ReservedRequestsHaveNoStep := by
  refine ⟨fun m w h9 => ⟨_, decode_write h9⟩, fun s w rest hl hb ho h9 hbyte => ?_⟩
  rw [step_idle_cons hb ho]
  simp [takeMove, takeRequest, hl, decode_reserved (m := s.cfg.mode) (w := w) h9 hbyte]

/-- The Ports in the order of their codes (R51). -/
def portOrder : List Port :=
  [.line .rs, .line .en, .line .d0, .line .d1, .line .d2, .line .d3, .line .d4, .line .d5,
    .line .d6, .line .d7, .i2c]

/-- The code of a Port is its place in the order, so it names the Port (R51). -/
theorem portOrder_getElem?_code (port : Port) : portOrder[port.code.toNat]? = some port := by
  cases port with
  | line p => cases p <;> rfl
  | i2c => rfl

theorem code_of_portOrder {k : Nat} {port : Port} (h : portOrder[k]? = some port) :
    port.code.toNat = k := by
  have hplace : ∀ k : Fin portOrder.length, portOrder[k].code.toNat = k := by decide
  obtain ⟨hk, rfl⟩ := List.getElem?_eq_some_iff.mp h
  exact hplace ⟨k, hk⟩

theorem Port.code_injective {port port' : Port} (h : port.code = port'.code) : port = port' := by
  have hport := portOrder_getElem?_code port
  rw [h, portOrder_getElem?_code] at hport
  exact (Option.some.inj hport).symm

/-- The word of an error is its Port's code beside bit 4 (R51). -/
theorem Completion.toNat_word_err (port : Port) (e : NativeErr) :
    (Completion.err port e).word.toNat = 16 + port.code.toNat := by
  show (1#1 ++ port.code).toNat = 16 + port.code.toNat
  generalize port.code = c
  revert c
  decide

/-- Bit 4 of a completion word tells an error from `Ok` (R51). -/
theorem Completion.word_getLsbD_four (r : Completion) : r.word.getLsbD 4 = true ↔ r ≠ .ok := by
  cases r with
  | ok => simp [Completion.word]
  | err port e =>
    have hword : (1#1 ++ port.code).getLsbD 4 = true := by rw [BitVec.getLsbD_append]; rfl
    exact ⟨nofun, fun _ => hword⟩

/-- With the native error beside it, the word determines the completion (R51). -/
theorem Completion.eq_of_word_of_native {r r' : Completion} (hw : r.word = r'.word)
    (hn : r.native = r'.native) : r = r' := by
  have hbit := Completion.word_getLsbD_four r
  rw [hw, Completion.word_getLsbD_four] at hbit
  cases r with
  | ok => exact (Decidable.not_not.mp fun h => hbit.mp h rfl).symm
  | err port e =>
    cases r' with
    | ok => exact absurd rfl (hbit.mpr nofun)
    | err port' e' =>
      have hcode := congrArg BitVec.toNat hw
      rw [Completion.toNat_word_err, Completion.toNat_word_err] at hcode
      rw [Port.code_injective (BitVec.eq_of_toNat_eq (Nat.add_left_cancel hcode)),
        Option.some.inj hn]

/-- Settles O4: the code of a Port is its place in the order, beside bit 4 (R51). -/
theorem completionWordsNameThePort : Obligations.CompletionWordsNameThePort := by
  refine ⟨Completion.word_getLsbD_four, rfl, fun e k port h => ⟨?_, rfl⟩,
    fun _ _ hw hn => Completion.eq_of_word_of_native hw hn⟩
  rw [Completion.toNat_word_err, code_of_portOrder h]

/-- Settles O5: the presentations written out bit by bit, read at each place of the order of the
lines (R52, R55). -/
theorem presentationsPutEachBitOnItsLine : Obligations.PresentationsPutEachBitOnItsLine := by
  refine ⟨fun b k p h => ?_, fun b k p h => ?_, fun b => ⟨rfl, rfl, rfl⟩⟩
  · obtain ⟨hk, -⟩ := List.getElem?_eq_some_iff.mp h
    rw [present4_hi4, present4_lo4]
    simp only [List.length_cons, List.length_nil] at hk
    interval_cases k <;> cases h <;> exact ⟨rfl, rfl⟩
  · obtain ⟨hk, -⟩ := List.getElem?_eq_some_iff.mp h
    simp only [List.length_cons, List.length_nil] at hk
    interval_cases k <;> cases h <;> rfl

/-- A byte that lies in bits 7:4 has its low bits clear (R56). -/
theorem getLsbD_of_low_clear {n : Byte} (hn : n &&& 0x0F = 0) {i : Nat} (hi : i < 4) :
    n.getLsbD i = false := by
  have hmask : (0x0F : Byte).getLsbD i = true := by interval_cases i <;> rfl
  have hbit : (n &&& 0x0F).getLsbD i = false := by
    rw [hn, BitVec.ofNat_eq_ofNat, BitVec.getLsbD_zero]
  rwa [BitVec.getLsbD_and, hmask, Bool.and_true] at hbit

/-- The upper bits of an expander byte are the nibble (R57). -/
theorem expanderByte_nibble {c : Config} (h : c.masksLegal = true) {n : Byte} (d bl : Bool)
    (hn : n &&& 0x0F = 0) : expanderByte c n d bl &&& 0xF0 = n := by
  refine BitVec.eq_of_getLsbD_eq fun i hi => ?_
  rw [BitVec.getLsbD_and, getLsbD_upperMask]
  by_cases h4 : 4 ≤ i
  · rw [(nibble_bits h n d bl h4 hi).1]
    simp [h4, hi]
  · simp [h4, getLsbD_of_low_clear hn (Nat.not_le.mp h4)]

/-- A byte without a bit of the mask, with the mask set and then cleared again, is itself (R57). -/
theorem or_mask_and_not_mask {x m : Byte} (h : hasMask x m = false) : (x ||| m) &&& ~~~m = x := by
  have hclear : x &&& m = 0 := by simpa [hasMask] using h
  refine BitVec.eq_of_getLsbD_eq fun i hi => ?_
  have hbit := congrArg (BitVec.getLsbD · i) hclear
  simp only [BitVec.getLsbD_and, BitVec.ofNat_eq_ofNat, BitVec.getLsbD_zero] at hbit
  simp only [BitVec.getLsbD_and, BitVec.getLsbD_or, BitVec.getLsbD_not, hi, decide_true,
    Bool.true_and]
  cases hx : x.getLsbD i <;> cases hm : m.getLsbD i <;> simp_all

/-- An expander byte with its nibble, flag and backlight bit determines them (R57). -/
theorem expanderByte_injective {c : Config} (h : c.masksLegal = true) {n n' : Byte}
    {d d' bl bl' : Bool} (hn : n &&& 0x0F = 0) (hn' : n' &&& 0x0F = 0)
    (heq : expanderByte c n d bl = expanderByte c n' d' bl') : n = n' ∧ d = d' ∧ bl = bl' := by
  obtain ⟨hd, -, hbl, -⟩ := control_bits h n d bl hn
  obtain ⟨hd', -, hbl', -⟩ := control_bits h n' d' bl' hn'
  refine ⟨?_, ?_, ?_⟩
  · rw [← expanderByte_nibble h d bl hn, heq, expanderByte_nibble h d' bl' hn']
  · rw [← hd, heq, hd']
  · rw [← hbl, heq, hbl']

/-- With the default masks nothing sets bit 1 of an expander byte (R57). -/
theorem expanderByte_standard_getLsbD_one {n : Byte} (d bl : Bool) (hn : n &&& 0x0F = 0) :
    (expanderByte .standard n d bl).getLsbD 1 = false := by
  have h1 := getLsbD_of_low_clear hn (i := 1) (by decide)
  rw [expanderByte, BitVec.getLsbD_or, BitVec.getLsbD_or, h1]
  cases d <;> cases bl <;> rfl

/-- Settles O7: the control bits and the nibble of an expander byte, from which the rest follows
(R57). -/
theorem expanderByteComposition : Obligations.ExpanderByteComposition := by
  refine ⟨fun c n d bl h hn => ?_, fun c n n' d d' bl bl' h hn hn' heq =>
    expanderByte_injective h hn hn' heq, fun n d bl hn => ?_⟩
  · obtain ⟨hd, hen, hbl, -, hassert, -⟩ := control_bits h n d bl hn
    exact ⟨expanderByte_nibble h d bl hn, hd, hbl, hen, hassert, or_mask_and_not_mask hen⟩
  · have hone := expanderByte_standard_getLsbD_one d bl hn
    obtain ⟨-, hen, -⟩ := control_bits (c := .standard) (by decide) n d bl hn
    have hclear : expanderByte .standard n d bl &&& 4 = 0 := by
      simpa [hasMask, Config.standard] using hen
    refine ⟨hone, ?_, (BitVec.add_eq_or_of_and_eq_zero _ _ hclear).symm⟩
    rw [assertByte, BitVec.getLsbD_or, hone]
    rfl

/-- Reading back a byte whose upper bits are a nibble for four lines gives that nibble (R65). -/
theorem extractLsb'_of_bits {y : Byte} {n : BitVec 4}
    (h : ∀ k, k < 4 → y.getLsbD (4 + k) = n.getLsbD k) : y.extractLsb' 4 4 = n := by
  refine BitVec.eq_of_getLsbD_eq fun k hk => ?_
  simpa [hk] using h k hk

/-- Reading back an expander byte and its assert byte, for any nibble in bits 7:4 (R65). -/
theorem readBack_expanderByte {c : Config} (h : c.masksLegal = true) {n : Byte} {m : BitVec 4}
    (d bl : Bool) (hn : n &&& 0x0F = 0) (hm : ∀ k, k < 4 → n.getLsbD (4 + k) = m.getLsbD k) :
    readBack c (expanderByte c n d bl) = ⟨d, false, bl, m⟩ ∧
      readBack c (assertByte c (expanderByte c n d bl)) = ⟨d, true, bl, m⟩ := by
  obtain ⟨hd, hen, hbl, hd', hen', hbl'⟩ := control_bits h n d bl hn
  have hbits (k : Nat) (hk : k < 4) := nibble_bits h n d bl (i := 4 + k) (by omega) (by omega)
  simp only [readBack, hd, hen, hbl, hd', hen', hbl',
    extractLsb'_of_bits fun k hk => (hbits k hk).1.trans (hm k hk),
    extractLsb'_of_bits fun k hk => (hbits k hk).2.trans (hm k hk), and_self]

/-- The nibbles in bits 7:4 are those for four lines (R55, R56). -/
theorem getLsbD_up_hi4 (b : Byte) (k : Nat) (hk : k < 4) :
    (up b).getLsbD (4 + k) = (hi4 b).getLsbD k := by
  have h8 : 4 + k < 8 := by omega
  rw [getLsbD_up, hi4_getLsbD b hk, Nat.add_comm k 4]
  simp [h8]

theorem getLsbD_dn_lo4 (b : Byte) (k : Nat) (hk : k < 4) :
    (dn b).getLsbD (4 + k) = (lo4 b).getLsbD k := by
  have h8 : 4 + k < 8 := by omega
  rw [getLsbD_dn, lo4_getLsbD b hk]
  simp [h8]

/-- Settles O8: reading back inverts the composition of a byte from any nibble; with the default
masks each control bit is read from its own place (R65). -/
theorem readingBackInvertsTheExpanderByte : Obligations.ReadingBackInvertsTheExpanderByte := by
  refine ⟨fun c b d bl h => ?_, fun y => ?_⟩
  · obtain ⟨hup, hupAssert⟩ :=
      readBack_expanderByte h d bl (low_bits_up b) (getLsbD_up_hi4 b)
    obtain ⟨hdn, hdnAssert⟩ :=
      readBack_expanderByte h d bl (low_bits_dn b) (getLsbD_dn_lo4 b)
    exact ⟨hup, hupAssert, hdn, hdnAssert⟩
  · have hmask : ∀ y : Byte, hasMask y 1 = y.getLsbD 0 ∧ hasMask y 4 = y.getLsbD 2 ∧
        hasMask y 8 = y.getLsbD 3 := by decide
    obtain ⟨hrs, hen, hbl⟩ := hmask y
    exact ExpanderView.mk.injEq .. ▸ ⟨hrs, hen, hbl, rfl⟩

end Sys2Proof.Machine

/-! Proofs of the statements about the owner's moves on an idle block (40_contract.md R70, R71;
70_reset_and_hazards.md R145 to R151). -/

namespace Sys2Proof.Machine

/-- A request of a live, idle block runs the instruction its word decodes to (R70, R71). -/
theorem step_request {s : State} {w : ReqWord} {rest : List OwnerMove} {i : Instr}
    (hl : s.live = true) (hb : s.busy = false) (ho : s.owner = .request w :: rest)
    (hd : decode s.cfg.mode w = .ok i) : step s = exec i { s with owner := rest } := by
  rw [step_idle_cons hb ho]
  simp [takeMove, takeRequest, hl, hd]

/-- Teardown of a live, idle block ends it and does nothing else (R147). -/
theorem step_teardown {s : State} {rest : List OwnerMove} (hl : s.live = true)
    (hb : s.busy = false) (ho : s.owner = .teardown :: rest) :
    step s = .next { s with owner := rest, live := false } := by
  rw [step_idle_cons hb ho]
  simp [takeMove, takeTeardown, hl, hb]

/-- A construction on an idle block is checked and, where it passes, leaves the reset values (R145,
R146, R148). -/
theorem step_construct {s : State} {a : ConstructArgs} {rest : List OwnerMove}
    (hb : s.busy = false) (ho : s.owner = .construct a :: rest) :
    step s = takeConstruct a { s with owner := rest } := step_idle_cons hb ho

/-- A request of a block that has ended has no step (R147). -/
theorem step_request_of_ended {s : State} {w : ReqWord} {rest : List OwnerMove}
    (hl : s.live = false) (hb : s.busy = false) (ho : s.owner = .request w :: rest) :
    step s = .refused .noBlock := by
  rw [step_idle_cons hb ho]
  simp [takeMove, takeRequest, hl]

/-- Settles O41: a request that decodes is run (R70, R71). -/
theorem stepRunsTheDecodedRequest : Obligations.StepRunsTheDecodedRequest :=
  fun _ _ _ _ hl hb ho hd => step_request hl hb ho hd

/-- Settles O42: an idle block without a move waits (R125). -/
theorem idleBlockWaitsForTheOwner : Obligations.IdleBlockWaitsForTheOwner :=
  fun _ hb ho => step_idle_nil hb ho

/-- Settles O40: teardown changes the life of the block and the owner's list alone (R147). -/
theorem teardownEndsTheBlock : Obligations.TeardownEndsTheBlock := fun _ _ hl hb ho =>
  ⟨_, step_teardown hl hb ho, rfl, hb, rfl, rfl, rfl, rfl, rfl,
    fun _ _ => step_request_of_ended rfl hb rfl⟩

/-- An address of 7 bits is kept whole (R146). -/
theorem addr_toNat_of_le {a : ConstructArgs} (h : a.addr ≤ 0x7F) :
    a.config.addr.toNat = a.addr.toNat := by
  have hlt : a.addr.toNat < 2 ^ 7 := Nat.lt_succ_of_le h
  show (a.addr.setWidth 7).toNat = a.addr.toNat
  rw [BitVec.toNat_setWidth, Nat.mod_eq_of_lt hlt]

/-- Settles O38: the construction passes its three checks and leaves the state of
`State.construct` (R145, R23). -/
theorem constructionLeavesTheResetState : Obligations.ConstructionLeavesTheResetState := by
  intro s a rest hl hb ho hwf haddr
  refine ⟨{ State.construct a.config with owner := rest, env := s.env }, ?_, rfl, rfl, rfl,
    fun p => by cases p <;> rfl, rfl, rfl, rfl, rfl, rfl, rfl, rfl, rfl, rfl, rfl, rfl, rfl,
    fun hm => addr_toNat_of_le (haddr hm)⟩
  have haddr' : ¬ (a.mode = .i2c ∧ 0x7F < a.addr) := fun ⟨hm, hlt⟩ =>
    Nat.not_lt_of_le (haddr hm) hlt
  rw [step_construct hb ho]
  simp only [takeConstruct, hl, hwf, if_neg haddr', Bool.false_eq_true, if_false,
    Bool.true_eq_false]

/-- Settles O39: the address is checked (R146). -/
theorem addressesAboveSevenBitsAreRefused : Obligations.AddressesAboveSevenBitsAreRefused := by
  intro s a rest hl hb ho hm haddr
  have haddr' : a.mode = .i2c ∧ 0x7F < a.addr := ⟨hm, haddr⟩
  rw [step_construct hb ho]
  simp only [takeConstruct, hl, if_pos haddr', Bool.false_eq_true, if_false]

/-- A mask that is none of the four low bits is not legal (R5). -/
theorem legalMask_eq_false {x : Byte} (hx : x ∉ [(0x01 : Byte), 0x02, 0x04, 0x08]) :
    Config.legalMask x = false := by
  simpa [Config.legalMask, and_assoc] using hx

/-- Masks that break one of R5's conditions are not legal. -/
theorem masksLegal_eq_false {c : Config}
    (h : (∃ x ∈ [c.rsBit, c.enBit, c.blBit], x ∉ [(0x01 : Byte), 0x02, 0x04, 0x08]) ∨
      c.rsBit = c.enBit ∨ c.rsBit = c.blBit ∨ c.enBit = c.blBit) : c.masksLegal = false := by
  rcases h with ⟨x, hmem, hx⟩ | h | h | h
  · have hbad := legalMask_eq_false hx
    simp only [List.mem_cons, List.not_mem_nil, or_false] at hmem
    rcases hmem with rfl | rfl | rfl <;> simp [Config.masksLegal, hbad]
  · simp [Config.masksLegal, h]
  · simp [Config.masksLegal, h]
  · simp [Config.masksLegal, h]

/-- Settles O54: the owner of the resources is checked first, the masks last (R5, R148). -/
theorem constructionsOnOwnedResourcesOrBadMasksAreRefused :
    Obligations.ConstructionsOnOwnedResourcesOrBadMasksAreRefused := by
  intro s a rest hb ho
  rw [step_construct hb ho]
  refine ⟨fun hl => by simp [takeConstruct, hl], fun hl hm haddr hmasks => ?_⟩
  have haddr' : ¬ (a.mode = .i2c ∧ 0x7F < a.addr) := fun ⟨_, hlt⟩ => Nat.not_lt_of_le haddr hlt
  have hmode : a.config.mode = .i2c := hm
  have hwf : a.config.wf = false := by
    simp [Config.wf, hmode, masksLegal_eq_false (c := a.config) hmasks]
  simp only [takeConstruct, hl, hwf, if_neg haddr', Bool.false_eq_true, if_false, if_true]

/-- Settles O55: with no request left in the run, a step waits, tears down, or begins the next run
(R151). -/
theorem endedRunStaysEnded : Obligations.EndedRunStaysEnded := by
  intro s t ⟨hb, hrun⟩ hstep
  rcases step_cases hstep with ⟨hbusy, -⟩ | ⟨-, -, rfl⟩ | ⟨w, rest, i, -, hl, ho, -, -⟩ |
    ⟨rest, -, -, -, rfl⟩ | ⟨a, rest, -, hl, ho, -, rfl⟩
  · -- nothing is in flight
    rw [hb] at hbusy
    cases hbusy
  · -- an idle block waits
    exact .inl ⟨⟨hb, hrun⟩, rfl, rfl, rfl, rfl, rfl, rfl⟩
  · -- no request is left in the run
    have hnone := hrun hl
    rw [ho] at hnone
    cases hnone
  · -- teardown
    exact .inl ⟨⟨hb, nofun⟩, rfl, rfl, rfl, rfl, rfl, rfl⟩
  · -- the construction of the next run
    exact .inr ⟨a, rest, ho, hl, rfl, rfl, rfl⟩

/-- A request form is refused where the mode has none, and while another is in flight (R58, R71). -/
theorem exec_of_another_mode {i : Instr} {m : Mode} {s : State} (hi : i.requestMode = some m)
    (hl : s.live = true) (hm : s.cfg.mode ≠ m) : exec i s = .refused .formOfAnotherMode := by
  rw [exec_eq_whenAccepted hi]
  simp [whenAccepted, hl, hm]

theorem exec_while_busy {i : Instr} {m : Mode} {s : State} (hi : i.requestMode = some m)
    (hl : s.live = true) (hm : s.cfg.mode = m) (hb : s.busy = true) :
    exec i s = .refused .requestWhileBusy := by
  rw [exec_eq_whenAccepted hi]
  simp [whenAccepted, hl, hm, hb]

/-- Settles O44: an instruction checks the mode first, and an internal form then that a request is
in flight (R58, R63). -/
theorem formsRunOnlyWhereTheyExist : Obligations.FormsRunOnlyWhereTheyExist := by
  have hpulse {m : Mode} (hm : m ≠ .i2c) : m = .fourBit ∨ m = .eightBit := by cases m <;> simp_all
  refine ⟨fun i m s hl hi hm => exec_of_another_mode hi hl hm, fun s hl hm => ?_,
    fun n d s hl hm => ?_, fun s hl hb hm => ?_, fun n d s hl hb hm => ?_⟩
  · simp [exec, execPulse, whenInFlight, hl, hm]
  · simp [exec, execWrnibI2c, whenInFlight, hl, hm]
  · simp [exec, execPulse, whenInFlight, hl, hpulse hm, hb]
  · simp [exec, execWrnibI2c, whenInFlight, hl, hm, hb]

end Sys2Proof.Machine

/-! Proofs of the statements about what a step does not read: native errors (60_exceptions.md R122,
R124), shadows, ghost flags and the past (10_state.md R16 to R19), and, while a request is in
flight, the owner's moves (40_contract.md R71). -/

namespace Sys2Proof.Machine

/-- A change of states that every operation and the completion `Ok` respect, and that keeps what a
request in flight is read from, is respected by a step of a busy block (R14, R71). -/
theorem step_busy_map {f : State → State} (hissue : ∀ op s, issue op (f s) = (issue op s).map f)
    (hok : ∀ s, (f s).completeOk = f s.completeOk) {s : State} (hb : s.busy = true)
    (hfb : (f s).busy = s.busy) (hseq : (f s).seq = s.seq)
    (hsteps : requestSteps (f s) = requestSteps s) : step (f s) = Result.map f (step s) := by
  rw [step_busy hb, step_busy (hfb.trans hb), hsteps, hseq, perform_map (P := fun _ => True)
    (fun op u _ => hissue op u) (fun _ _ _ => trivial) _ trivial, finishRequest_map hok]

section Relabel
variable (f : NativeErr → NativeErr) (s : State)

theorem State.relabel_answer : (s.relabel f).answer = s.answer.relabel f := by
  simp only [State.answer, State.relabel]
  cases s.env <;> rfl

theorem State.relabel_completeOk : (s.relabel f).completeOk = s.completeOk.relabel f := by
  simp [State.completeOk, State.emit, State.relabel, Event.relabel, Completion.relabel]

/-- Relabelling commutes with what an operation answered `ok` leaves. -/
theorem afterOk_relabel (op : Op) : afterOk (s.relabel f) op = (afterOk s op).relabel f := by
  cases op <;> simp [afterOk, State.answered, State.setLine, State.setPexp, State.emit,
    State.advance, State.relabel, Event.relabel]

/-- Relabelling commutes with a tagged failure, whose error is passed through (R122). -/
theorem raiseIoError_relabel {ev : Event} (port : Port) (e : NativeErr) :
    (((s.relabel f).answered).emit (ev.relabel f)).raiseIoError port (f e) =
      ((s.answered.emit ev).raiseIoError port e).relabel f := by
  simp [State.answered, State.emit, State.raiseIoError, State.relabel, Event.relabel,
    Completion.relabel]

theorem abandon_relabel (op : Op) :
    (s.relabel f).answered.abandon op = (s.answered.abandon op).relabel f := by
  simp [State.answered, State.emit, State.abandon, State.relabel, Event.relabel]

theorem cancelPending_relabel (op : Op) :
    cancelPending op (s.relabel f).answered = (cancelPending op s.answered).map (.relabel f) := by
  have hexec : (s.relabel f).answered.cfg.exec = s.answered.cfg.exec := rfl
  rw [cancelPending, cancelPending, hexec, abandon_relabel]
  cases s.answered.cfg.exec <;> rfl

/-- Every answer does to an operation of the relabelled block what it does to the block's own, with
the error relabelled (R122). -/
theorem issue_relabel (op : Op) : issue op (s.relabel f) = (issue op s).map (.relabel f) := by
  cases ha : s.answer with
  | ok =>
    have ha' : (s.relabel f).answer = .ok := by rw [State.relabel_answer, ha]; rfl
    rw [issue_ok ha, issue_ok ha', afterOk_relabel]
    rfl
  | fail e =>
    have ha' : (s.relabel f).answer = .fail (f e) := by rw [State.relabel_answer, ha]; rfl
    cases op with
    | pinWrite p v =>
      simp only [issue, pinWrite, ha, ha']
      exact congrArg Progress.ended
        (raiseIoError_relabel f (s.setLine p .x) (ev := .pinFail p v e) (.line p) e)
    | busWrite a bytes =>
      simp only [issue, busWrite, ha, ha']
      exact congrArg Progress.ended
        (raiseIoError_relabel f (s.setPexp .x) (ev := .busFail a bytes e) .i2c e)
    | delayMs n => simp only [issue, delayMs, ha, ha', Progress.map]
  | stall =>
    have ha' : (s.relabel f).answer = .stall := by rw [State.relabel_answer, ha]; rfl
    cases op <;> simp only [issue, pinWrite, busWrite, delayMs, ha, ha', Progress.map]
  | cancel =>
    have ha' : (s.relabel f).answer = .cancel := by rw [State.relabel_answer, ha]; rfl
    cases op with
    | pinWrite p v => simp only [issue, pinWrite, ha, ha', Progress.map]
    | busWrite a bytes =>
      simp only [issue, busWrite, ha, ha']
      exact cancelPending_relabel f (s.setPexp .x) (.busWrite a bytes)
    | delayMs n =>
      simp only [issue, delayMs, ha, ha']
      exact cancelPending_relabel f s (.delayMs n)

theorem stepsOf_relabel (i : Instr) : stepsOf i (s.relabel f) = stepsOf i s := by
  cases i <;> rfl

theorem accepted_relabel (i : Instr) : accepted i (s.relabel f) = (accepted i s).relabel f := by
  cases i <;> rfl

/-- A request form passes native errors through (R122). -/
theorem exec_relabel {i : Instr} {m : Mode} (hi : i.requestMode = some m) :
    exec i (s.relabel f) = Result.map (.relabel f) (exec i s) := by
  rw [exec_eq_whenAccepted hi, exec_eq_whenAccepted hi, stepsOf_relabel, accepted_relabel,
    perform_map (P := fun _ => True) (fun op u _ => issue_relabel f u op)
      (fun _ _ _ => trivial) _ trivial,
    finishRequest_map fun u => State.relabel_completeOk f u]
  exact whenAccepted_map (f := .relabel f) rfl rfl rfl

theorem takeRequest_relabel (w : ReqWord) :
    takeRequest w (s.relabel f) = Result.map (.relabel f) (takeRequest w s) := by
  have hlive : (s.relabel f).live = s.live := rfl
  have hmode : (s.relabel f).cfg.mode = s.cfg.mode := rfl
  rw [takeRequest, takeRequest, hlive, hmode]
  split
  · rfl
  · cases hd : decode s.cfg.mode w with
    | ok i => exact exec_relabel f s (requestMode_of_decode hd)
    | error e => rfl

/-- Teardown reads and emits no native error (R147). -/
theorem takeTeardown_relabel :
    takeTeardown (s.relabel f) = Result.map (.relabel f) (takeTeardown s) := by
  have hlive : (s.relabel f).live = s.live := rfl
  have hbusy : (s.relabel f).busy = s.busy := rfl
  rw [takeTeardown, takeTeardown, hlive, hbusy]
  split
  · rfl
  · split <;> rfl

/-- A construction reads and emits no native error (R145). -/
theorem takeConstruct_relabel (a : ConstructArgs) :
    takeConstruct a (s.relabel f) = Result.map (.relabel f) (takeConstruct a s) := by
  have hlive : (s.relabel f).live = s.live := rfl
  rw [takeConstruct, takeConstruct, hlive]
  split
  · rfl
  · split
    · rfl
    · split <;> rfl

/-- A step of the relabelled block is the step of the block, relabelled (R122, R124). -/
theorem step_relabel : step (s.relabel f) = Result.map (.relabel f) (step s) := by
  cases hb : s.busy with
  | true =>
    exact step_busy_map (f := .relabel f) (fun op u => issue_relabel f u op)
      (State.relabel_completeOk f) hb rfl rfl rfl
  | false =>
    cases ho : s.owner with
    | nil =>
      rw [step_idle_nil (s := s.relabel f) hb ho, step_idle_nil hb ho]
      rfl
    | cons mv rest =>
      rw [step_idle_cons (s := s.relabel f) hb ho, step_idle_cons hb ho]
      cases mv with
      | request w => exact takeRequest_relabel f { s with owner := rest } w
      | teardown => exact takeTeardown_relabel f { s with owner := rest }
      | construct a => exact takeConstruct_relabel f { s with owner := rest } a

end Relabel

/-- Settles O32: relabelling commutes with every operation, and so with the step (R122, R124). -/
theorem nativeErrorsAreNeverInspected : Obligations.NativeErrorsAreNeverInspected := by
  refine fun f s => ⟨fun t h => ?_, fun r h => ?_⟩
  · rw [step_relabel, h]
    rfl
  · rw [step_relabel, h]
    rfl

/-- The same block with other moves of its owner still to come. -/
def State.withOwner (s : State) (o : List OwnerMove) : State := { s with owner := o }

@[simp] theorem State.withOwner_answer (s : State) (o : List OwnerMove) :
    (s.withOwner o).answer = s.answer := rfl

@[simp] theorem State.withOwner_cfg (s : State) (o : List OwnerMove) :
    (s.withOwner o).cfg = s.cfg := rfl

theorem cancelPending_withOwner (op : Op) (s : State) (o : List OwnerMove) :
    cancelPending op (s.withOwner o) = (cancelPending op s).map (State.withOwner · o) := by
  rw [cancelPending, cancelPending, State.withOwner_cfg]
  cases s.cfg.exec <;> rfl

/-- No operation reads or writes the owner's moves (R71). -/
theorem issue_withOwner (op : Op) (s : State) (o : List OwnerMove) :
    issue op (s.withOwner o) = (issue op s).map (State.withOwner · o) := by
  cases op with
  | pinWrite p v =>
    simp only [issue, pinWrite, State.withOwner_answer]
    cases s.answer <;> rfl
  | busWrite a bytes =>
    simp only [issue, busWrite, State.withOwner_answer]
    cases s.answer with
    | cancel => exact cancelPending_withOwner _ (s.answered.setPexp .x) o
    | ok | fail e | stall => rfl
  | delayMs n =>
    simp only [issue, delayMs, State.withOwner_answer]
    cases s.answer with
    | cancel => exact cancelPending_withOwner _ s.answered o
    | ok | fail e | stall => rfl

/-- Settles O43: the step of a busy block runs the rest of the request, which reads no move of the
owner, and acceptance checks that no request is in flight (R71). -/
theorem busyBlockAcceptsNothing : Obligations.BusyBlockAcceptsNothing := by
  refine fun s hb => ⟨fun t hstep => ⟨?_, fun o => ?_⟩,
    fun i m hl hm hi => exec_while_busy hi hl hm hb⟩
  · rw [step_busy hb] at hstep
    obtain ⟨-, -, howner, -⟩ := finishRequest_keeps hstep
    exact howner
  · have hmap := step_busy_map (f := (State.withOwner · o)) (fun op u => issue_withOwner op u o)
      (fun _ => rfl) hb rfl rfl rfl
    rw [hstep] at hmap
    exact hmap

/-- Two states that are the same but for their shadows, their ghost flags and their pasts; what they
have emitted beyond their pasts is the same too (R16, R18, R19). -/
def State.SameButPast (past past' : List Event) (s s' : State) : Prop :=
  ∃ l y f c new, s.trace = past ++ new ∧ s' = s.withPast l y f c (past' ++ new)

/-- Two runs of a list of steps that end the same way, in states that are the same but for their
shadows, ghost flags and pasts. -/
inductive Progress.SameButPast (past past' : List Event) : Progress → Progress → Prop where
  | running {s s' : State} (h : State.SameButPast past past' s s') :
      Progress.SameButPast past past' (.running s) (.running s')
  | ended {s s' : State} (h : State.SameButPast past past' s s') :
      Progress.SameButPast past past' (.ended s) (.ended s')
  | waiting {s s' : State} (h : State.SameButPast past past' s s') :
      Progress.SameButPast past past' (.waiting s) (.waiting s')
  | refused (r : Refusal) : Progress.SameButPast past past' (.refused r) (.refused r)

section SameButPast
variable {past past' : List Event} {s s' : State}

theorem State.sameButPast_withPast (s : State) (l : Lines) (y : Shadow Byte) (f c : Bool)
    (past : List Event) : State.SameButPast s.trace past s (s.withPast l y f c past) :=
  ⟨l, y, f, c, [], by simp, by simp⟩

theorem State.SameButPast.eq_withPast (h : State.SameButPast past past' s s') :
    ∃ l y f c, s' = s.withPast l y f c (past' ++ s.trace.drop past.length) := by
  obtain ⟨l, y, f, c, new, htrace, rfl⟩ := h
  exact ⟨l, y, f, c, by simp [htrace]⟩

theorem State.SameButPast.answer (h : State.SameButPast past past' s s') :
    s'.answer = s.answer := by
  obtain ⟨l, y, f, c, new, -, rfl⟩ := h
  rfl

theorem State.SameButPast.cfg (h : State.SameButPast past past' s s') : s'.cfg = s.cfg := by
  obtain ⟨l, y, f, c, new, -, rfl⟩ := h
  rfl

theorem State.SameButPast.answered (h : State.SameButPast past past' s s') :
    State.SameButPast past past' s.answered s'.answered := by
  obtain ⟨l, y, f, c, new, htrace, rfl⟩ := h
  exact ⟨l, y, f, c, new, htrace, rfl⟩

theorem State.SameButPast.emit (h : State.SameButPast past past' s s') (e : Event) :
    State.SameButPast past past' (s.emit e) (s'.emit e) := by
  obtain ⟨l, y, f, c, new, htrace, rfl⟩ := h
  exact ⟨l, y, f, c, new ++ [e], by simp [htrace], by simp [State.emit, State.withPast]⟩

theorem State.SameButPast.setLine (h : State.SameButPast past past' s s') (p : Pin)
    (v : Shadow Bool) : State.SameButPast past past' (s.setLine p v) (s'.setLine p v) := by
  obtain ⟨l, y, f, c, new, htrace, rfl⟩ := h
  exact ⟨l.set p v, y, f, c, new, htrace, rfl⟩

theorem State.SameButPast.setPexp (h : State.SameButPast past past' s s') (v v' : Shadow Byte) :
    State.SameButPast past past' (s.setPexp v) (s'.setPexp v') := by
  obtain ⟨l, y, f, c, new, htrace, rfl⟩ := h
  exact ⟨l, v', f, c, new, htrace, rfl⟩

theorem State.SameButPast.advance (h : State.SameButPast past past' s s') :
    State.SameButPast past past' s.advance s'.advance := by
  obtain ⟨l, y, f, c, new, htrace, rfl⟩ := h
  exact ⟨l, y, f, c, new, htrace, rfl⟩

theorem State.SameButPast.completeOk (h : State.SameButPast past past' s s') :
    State.SameButPast past past' s.completeOk s'.completeOk := by
  obtain ⟨l, y, f, c, new, htrace, heq⟩ := h.emit (.done .ok)
  refine ⟨l, y, f, c, new, htrace, ?_⟩
  rw [State.completeOk, heq]
  rfl

theorem State.SameButPast.raiseIoError (h : State.SameButPast past past' s s') (port : Port)
    (e : NativeErr) :
    State.SameButPast past past' (s.raiseIoError port e) (s'.raiseIoError port e) := by
  obtain ⟨l, y, f, c, new, htrace, heq⟩ := h.emit (.done (.err port e))
  refine ⟨l, y, true, c, new, htrace, ?_⟩
  rw [State.raiseIoError, heq]
  rfl

theorem State.SameButPast.abandon (h : State.SameButPast past past' s s') (op : Op) :
    State.SameButPast past past' (s.abandon op) (s'.abandon op) := by
  obtain ⟨l, y, f, c, new, htrace, heq⟩ := h.emit (.cancelled op)
  refine ⟨l, y, f, true, new, htrace, ?_⟩
  rw [State.abandon, heq]
  rfl

theorem State.SameButPast.accepted (h : State.SameButPast past past' s s') (i : Instr) :
    State.SameButPast past past' (accepted i s) (accepted i s') := by
  obtain ⟨l, y, f, c, new, htrace, rfl⟩ := h
  exact ⟨l, y, f, c, new, by simpa using htrace, by cases i <;> rfl⟩

/-- A cancellation reads the execution model and no shadow (R130). -/
theorem State.SameButPast.cancelPending (h : State.SameButPast past past' s s') (op : Op) :
    Progress.SameButPast past past' (cancelPending op s) (cancelPending op s') := by
  rw [Machine.cancelPending, Machine.cancelPending, h.cfg]
  cases s.cfg.exec with
  | suspending => exact .ended (h.abandon op)
  | blocking => exact .refused _

/-- No operation reads a shadow, a ghost flag or the trace (R16, R18, R19). -/
theorem State.SameButPast.issue (h : State.SameButPast past past' s s') (op : Op) :
    Progress.SameButPast past past' (issue op s) (issue op s') := by
  cases op with
  | pinWrite p v =>
    simp only [Machine.issue, pinWrite, h.answer]
    cases s.answer with
    | ok => exact .running ((h.answered.setLine p _).emit _).advance
    | fail e => exact .ended (((h.answered.setLine p _).emit _).raiseIoError _ e)
    | stall | cancel => exact .refused _
  | busWrite a bytes =>
    simp only [Machine.issue, busWrite, h.answer]
    cases s.answer with
    | ok => exact .running ((h.answered.setPexp _ _).emit _).advance
    | fail e => exact .ended (((h.answered.setPexp _ _).emit _).raiseIoError _ e)
    | stall => exact .waiting h
    | cancel => exact (h.answered.setPexp _ _).cancelPending _
  | delayMs n =>
    simp only [Machine.issue, delayMs, h.answer]
    cases s.answer with
    | ok => exact .running (h.answered.emit _).advance
    | fail e => exact .refused _
    | stall => exact .waiting h
    | cancel => exact h.answered.cancelPending _

/-- No list of steps reads a shadow, a ghost flag or the trace. -/
theorem State.SameButPast.perform (h : State.SameButPast past past' s s') (ops : List Op) :
    Progress.SameButPast past past' (perform ops s) (perform ops s') := by
  induction ops generalizing s s' with
  | nil => exact .running h
  | cons op ops ih =>
    have hissue := h.issue op
    simp only [Machine.perform]
    generalize Machine.issue op s = p at hissue
    generalize Machine.issue op s' = p' at hissue
    cases hissue with
    | running h => exact ih h
    | ended h => exact .ended h
    | waiting h => exact .waiting h
    | refused r => exact .refused r

/-- A request's run leaves the same block and adds the same events (R128). -/
theorem State.SameButPast.finishRequest {ops : List Op} {t : State}
    (h : State.SameButPast past past' s s')
    (hrun : Machine.finishRequest (Machine.perform ops s) = .next t) :
    ∃ t', Machine.finishRequest (Machine.perform ops s') = .next t' ∧
      State.SameButPast past past' t t' := by
  have hperform := h.perform ops
  generalize Machine.perform ops s = p at hperform hrun
  generalize Machine.perform ops s' = p' at hperform
  cases hperform with
  | running h => cases hrun; exact ⟨_, rfl, h.completeOk⟩
  | ended h => cases hrun; exact ⟨_, rfl, h⟩
  | waiting h => cases hrun; exact ⟨_, rfl, h⟩
  | refused r => cases hrun

/-- A request form does the same after any past. -/
theorem State.SameButPast.exec {i : Instr} {m : Mode} {t : State} (hi : i.requestMode = some m)
    (h : State.SameButPast past past' s s') (hexec : Machine.exec i s = .next t) :
    ∃ t', Machine.exec i s' = .next t' ∧ State.SameButPast past past' t t' := by
  have hr := ready_of_exec hi hexec
  have hr' : s'.ready m := by
    obtain ⟨l, y, f, c, new, -, rfl⟩ := h
    exact hr
  have hsteps : stepsOf i s' = stepsOf i s := by
    obtain ⟨l, y, f, c, new, -, rfl⟩ := h
    cases i <;> rfl
  rw [exec_request hi hr] at hexec
  rw [exec_request hi hr', hsteps]
  exact (h.accepted i).finishRequest hexec

end SameButPast

/-- A step that constructs no block does the same after any past, whatever the shadows and the ghost
flags are (R16, R18, R19). -/
theorem step_sameButPast {s t : State} (l : Lines) (y : Shadow Byte) (f c : Bool)
    (past : List Event) (hkeep : s.keepsItsBlock = true) (hstep : step s = .next t) :
    ∃ t', step (s.withPast l y f c past) = .next t' ∧ State.SameButPast s.trace past t t' := by
  have hsame := State.sameButPast_withPast s l y f c past
  rcases step_cases hstep with ⟨hb, hrun⟩ | ⟨hb, ho, rfl⟩ |
    ⟨w, rest, i, hb, hl, ho, hdecode, hexec⟩ | ⟨rest, hb, hl, ho, rfl⟩ |
    ⟨a, rest, -, -, howner, -, -⟩
  · -- the request in flight goes on
    rw [step_busy (s := s.withPast l y f c past) hb]
    exact hsame.finishRequest hrun
  · -- an idle block waits
    exact ⟨_, step_idle_nil (s := t.withPast l y f c past) hb ho, hsame⟩
  · -- a request is accepted
    rw [step_request (s := s.withPast l y f c past) hl hb ho hdecode]
    exact State.SameButPast.exec (requestMode_of_decode hdecode)
      (State.sameButPast_withPast { s with owner := rest } l y f c past) hexec
  · -- teardown
    exact ⟨_, step_teardown (s := s.withPast l y f c past) hl hb ho,
      State.sameButPast_withPast { s with owner := rest, live := false } l y f c past⟩
  · -- a construction is excluded
    rw [State.keepsItsBlock_eq_false_of_construct howner] at hkeep
    cases hkeep

/-- Settles O33: no operation reads a shadow, a ghost flag or the trace, so two states that are the
same but for these take the same step (R16, R18, R19, R128). -/
theorem shadowsAndGhostFlagsAreNeverRead : Obligations.ShadowsAndGhostFlagsAreNeverRead := by
  intro s t l y f c past hkeep hstep
  obtain ⟨t', hstep', hsame⟩ := step_sameButPast l y f c past hkeep hstep
  obtain ⟨l', y', f', c', rfl⟩ := hsame.eq_withPast
  exact ⟨l', y', f', c', hstep'⟩

end Sys2Proof.Machine

/-! What every instruction keeps, and the frames of the forms (20_memory.md R40; 10_state.md R12,
R13, R16, R19). -/

namespace Sys2Proof.Machine

section StopsAt
variable {op : Op} {s t : State}

/-- What no operation writes that is not answered `ok`. -/
theorem StopsAt.keeps (h : StopsAt op s t) :
    t.cfg = s.cfg ∧ t.live = s.live ∧ t.owner = s.owner ∧ t.bl = s.bl ∧ t.op = s.op ∧
      t.byte = s.byte ∧ t.isData = s.isData ∧ t.state = s.state := by
  cases h <;> simp

/-- Only a wait leaves the request in flight, and only at a suspension point (R78, R80). -/
theorem StopsAt.eq_of_busy (h : StopsAt op s t) (hb : t.busy = true) :
    t = s ∧ op.suspends = true := by
  cases h with
  | pinFail p v e | busFail a bytes e | busCancel a bytes | delayCancel n => cases hb
  | busWait a bytes | delayWait n => exact ⟨rfl, rfl⟩

/-- Only a wait leaves both ghost flags clear (R19, R122, R130). -/
theorem StopsAt.eq_of_undisturbed (h : StopsAt op s t) (hu : t.undisturbed) :
    t = s ∧ op.suspends = true := by
  obtain ⟨hfailed, hcancelled⟩ := hu
  cases h with
  | pinFail p v e | busFail a bytes e => cases hfailed
  | busCancel a bytes | delayCancel n => cases hcancelled
  | busWait a bytes | delayWait n => exact ⟨rfl, rfl⟩

/-- A ghost flag that is set stays set (R19). -/
theorem StopsAt.flags (h : StopsAt op s t) :
    (s.failed = true → t.failed = true) ∧ (s.cancelled = true → t.cancelled = true) := by
  cases h <;> simp

/-- An operation that is not answered `ok` takes its answer, or none. -/
theorem StopsAt.env (h : StopsAt op s t) : ∃ n, t.env = s.env.drop n := by
  cases h with
  | pinFail p v e | busFail a bytes e | busCancel a bytes | delayCancel n =>
    exact ⟨1, by simp⟩
  | busWait a bytes | delayWait n => exact ⟨0, rfl⟩

/-- An operation on another line leaves a line as it is (R16). -/
theorem StopsAt.line {p : Pin} (h : StopsAt op s t) (hop : ∀ v, op ≠ .pinWrite p v) :
    t.lines.get p = s.lines.get p := by
  cases h with
  | pinFail q v e => exact Lines.get_set_of_ne _ _ fun hq => hop v (hq ▸ rfl)
  | busFail a bytes e | busCancel a bytes | delayCancel n | busWait a bytes
  | delayWait n => rfl

/-- An operation on a line or a delay leaves the expander as it is (R18). -/
theorem StopsAt.pexp (h : StopsAt op s t) (hop : ∀ a bytes, op ≠ .busWrite a bytes) :
    t.pexp = s.pexp := by
  cases h with
  | busFail a bytes e | busCancel a bytes | busWait a bytes => exact absurd rfl (hop a bytes)
  | pinFail q v e | delayCancel n | delayWait n => rfl

end StopsAt

/-- A line keeps its level over steps that do not write it (R16). -/
theorem foldl_linesAfter_get {p : Pin} {ops : List Op} (h : ∀ v, .pinWrite p v ∉ ops) (l : Lines) :
    ((ops.map Op.event).foldl linesAfter l).get p = l.get p := by
  induction ops generalizing l with
  | nil => rfl
  | cons op ops ih =>
    rw [List.map_cons, List.foldl_cons, ih fun v hv => h v (List.mem_cons_of_mem op hv)]
    cases op with
    | pinWrite q v =>
      exact Lines.get_set_of_ne l (.known v) fun hq => h v (hq ▸ List.mem_cons_self)
    | busWrite a bytes | delayMs n => rfl

/-- The expander keeps its latch over steps without a bus write (R18). -/
theorem foldl_pexpAfter_of_noBus {ops : List Op} (h : ∀ a bytes, .busWrite a bytes ∉ ops)
    (y : Shadow Byte) : (ops.map Op.event).foldl pexpAfter y = y := by
  induction ops generalizing y with
  | nil => rfl
  | cons op ops ih =>
    rw [List.map_cons, List.foldl_cons, ih fun a bytes hm => h a bytes (List.mem_cons_of_mem op hm)]
    cases op with
    | busWrite a bytes => exact absurd List.mem_cons_self (h a bytes)
    | pinWrite q v | delayMs n => rfl

section Frame
variable {i : Instr} {s t : State}

/-- The operand latches and the backlight flag are those of the acceptance, whatever an instruction
ends in (R12, R13). -/
theorem exec_latches (h : exec i s = .next t) :
    t.bl = flagAfter s i ∧ t.op = (accepted i s).op ∧ t.byte = (accepted i s).byte ∧
      t.isData = (accepted i s).isData ∧ t.state = (accepted i s).state := by
  rcases exec_cases h with rfl | ⟨-, rfl⟩ | ⟨pre, op, post, -, hstop⟩
  · simp
  · simp
  · obtain ⟨-, -, -, hbl, hop, hbyte, hisData, hstate⟩ := hstop.keeps
    simp [hbl, hop, hbyte, hisData, hstate]

/-- An instruction leaves a line alone that its steps do not write (R16). -/
theorem exec_line {p : Pin} (h : exec i s = .next t) (hno : ∀ v, .pinWrite p v ∉ stepsOf i s) :
    t.lines.get p = s.lines.get p := by
  rcases exec_cases h with rfl | ⟨-, rfl⟩ | ⟨pre, op, post, hsteps, hstop⟩
  · simpa using foldl_linesAfter_get hno s.lines
  · simpa using foldl_linesAfter_get hno s.lines
  · rw [hsteps] at hno
    rw [hstop.line fun v hv => hno v (by simp [hv])]
    simpa using foldl_linesAfter_get (fun v hv => hno v (List.mem_append_left _ hv)) s.lines

/-- An instruction whose steps write no bus leaves the expander alone (R18). -/
theorem exec_pexp (h : exec i s = .next t) (hno : ∀ a bytes, .busWrite a bytes ∉ stepsOf i s) :
    t.pexp = s.pexp := by
  rcases exec_cases h with rfl | ⟨-, rfl⟩ | ⟨pre, op, post, hsteps, hstop⟩
  · simpa using foldl_pexpAfter_of_noBus hno s.pexp
  · simpa using foldl_pexpAfter_of_noBus hno s.pexp
  · rw [hsteps] at hno
    rw [hstop.pexp fun a bytes hb => hno a bytes (by simp [hb])]
    simpa using foldl_pexpAfter_of_noBus
      (fun a bytes hb => hno a bytes (List.mem_append_left _ hb)) s.pexp

/-- A request without steps is accepted and completes `Ok` (R87, R97). -/
theorem exec_of_no_steps {m : Mode} (hi : i.requestMode = some m) (hsteps : stepsOf i s = [])
    (h : exec i s = .next t) : t = (accepted i s).completeOk := by
  rw [exec_request hi (ready_of_exec hi h), hsteps] at h
  exact (Host.Outcome.next.inj h).symm

end Frame

/-- Settles O46: of the three ends of an instruction's steps, none writes the parameters, the
owner's moves or the life of the block, takes an answer back, cuts the trace or clears a ghost flag
(R19, R40). -/
theorem everyInstructionKeepsTheRest : Obligations.EveryInstructionKeepsTheRest := by
  intro i s t h
  rcases exec_cases h with rfl | ⟨-, rfl⟩ | ⟨pre, op, post, -, hstop⟩
  · exact ⟨by simp, by simp, by simp, ⟨(stepsOf i s).length, by simp⟩, by simp [State.newEvents],
      by simp, by simp⟩
  · exact ⟨by simp, by simp, by simp, ⟨(stepsOf i s).length, by simp⟩, by simp [State.newEvents],
      by simp, by simp⟩
  · obtain ⟨hcfg, hlive, howner, -⟩ := hstop.keeps
    obtain ⟨n, henv⟩ := hstop.env
    obtain ⟨hfailed, hcancelled⟩ := hstop.flags
    obtain ⟨l, htrace, -⟩ := hstop.busBytes
    exact ⟨by simp [hcfg], by simp [hlive], by simp [howner], ⟨pre.length + n, by simp [henv]⟩,
      by simp [State.newEvents, htrace], by simpa using hfailed, by simpa using hcancelled⟩

/-- The lines that the steps of `WRITE.4` leave alone (R85). -/
theorem notMem_write4Steps {c : Config} {b : Byte} {d : Bool} {p : Pin}
    (hp : p ∈ [Pin.d0, .d1, .d2, .d3]) (v : Bool) : .pinWrite p v ∉ write4Steps c b d := by
  simp only [List.mem_cons, List.not_mem_nil, or_false] at hp
  rcases hp with rfl | rfl | rfl | rfl <;> cases d <;>
    simp [write4Steps, present4, pulseSteps, restoreRs]

/-- The steps of the parallel forms write no bus (R7, R10). -/
theorem noBus_write4Steps (c : Config) (b : Byte) (d : Bool) (a : Addr) (bytes : List Byte) :
    .busWrite a bytes ∉ write4Steps c b d := by
  cases d <;> simp [write4Steps, present4, pulseSteps, restoreRs]

theorem noBus_write8Steps (c : Config) (b : Byte) (d : Bool) (a : Addr) (bytes : List Byte) :
    .busWrite a bytes ∉ write8Steps c b d := by
  cases d <;> simp [write8Steps, present8, pulseSteps, restoreRs]

theorem noBus_pulseSteps (c : Config) (a : Addr) (bytes : List Byte) :
    .busWrite a bytes ∉ pulseSteps c := by
  simp [pulseSteps]

/-- Settles O47: the frame is read off the steps of each form, and the latches off its acceptance
(R12, R13, R16). -/
theorem parallelFormsFrame : Obligations.ParallelFormsFrame := by
  refine ⟨fun b d s t h => ?_, fun b d s t h => ?_, fun v i s t hi h => ?_, fun s t h => ?_⟩
  · obtain ⟨hbl, hop, hbyte, hisData, hstate⟩ := exec_latches h
    exact ⟨hbl, exec_pexp h (noBus_write4Steps s.cfg b d), hstate, hop, hbyte, hisData,
      fun p hp => exec_line h (notMem_write4Steps hp)⟩
  · obtain ⟨hbl, hop, hbyte, hisData, hstate⟩ := exec_latches h
    exact ⟨hbl, exec_pexp h (noBus_write8Steps s.cfg b d), hstate, hop, hbyte, hisData⟩
  · rcases hi with rfl | rfl
    · rw [exec_of_no_steps (i := .setbl4 v) rfl rfl h]
      exact ⟨rfl, rfl, rfl, rfl, rfl, rfl, rfl, rfl, rfl, rfl⟩
    · rw [exec_of_no_steps (i := .setbl8 v) rfl rfl h]
      exact ⟨rfl, rfl, rfl, rfl, rfl, rfl, rfl, rfl, rfl, rfl⟩
  · obtain ⟨hbl, hop, hbyte, hisData, hstate⟩ := exec_latches h
    exact ⟨hbl, exec_pexp h (noBus_pulseSteps s.cfg), hop, hbyte, hisData, hstate,
      fun p hp => exec_line h fun v => by simp [stepsOf, pulseSteps, hp]⟩

/-- The steps of the `I2C` forms write no line (R10). -/
theorem noPin_wrnibSteps (c : Config) (bl : Bool) (n : Byte) (d : Bool) (p : Pin) (v : Bool) :
    .pinWrite p v ∉ wrnibSteps c bl n d := by
  simp [wrnibSteps]

theorem noPin_writeI2cSteps (c : Config) (bl : Bool) (b : Byte) (d : Bool) (p : Pin) (v : Bool) :
    .pinWrite p v ∉ writeI2cSteps c bl b d := by
  simp [writeI2cSteps, noPin_wrnibSteps]

/-- An instruction whose steps write no line leaves every line alone. -/
theorem exec_lines {i : Instr} {s t : State} (h : exec i s = .next t)
    (hno : ∀ p v, .pinWrite p v ∉ stepsOf i s) : t.lines = s.lines :=
  Lines.ext_get fun p => exec_line h (hno p)

/-- Settles O48: the `I2C` forms write the bus alone, and their latches at the acceptance (R12, R13,
R105 to R107). -/
theorem i2cFormsFrame : Obligations.I2cFormsFrame := by
  refine ⟨fun b d s t h => ?_, fun v s t h => ?_, fun n d s t h => ?_⟩
  · obtain ⟨hbl, hop, hbyte, hisData, hstate⟩ := exec_latches h
    exact ⟨exec_lines h (noPin_writeI2cSteps s.cfg s.bl b d), hbl, hstate, hop, hbyte, hisData⟩
  · obtain ⟨hbl, hop, hbyte, hisData, hstate⟩ := exec_latches h
    exact ⟨exec_lines h (noPin_writeI2cSteps s.cfg v 0x00 false), hbl, hstate, hop, hbyte, hisData⟩
  · obtain ⟨hbl, hop, hbyte, hisData, hstate⟩ := exec_latches h
    exact ⟨exec_lines h (noPin_wrnibSteps s.cfg s.bl n d), hbl, hop, hbyte, hisData, hstate⟩

/-- Settles O29: of the moves a step can make, only an accepted `SETBL.I2C` and a construction leave
another flag (R13). -/
theorem onlySetblAndConstructionWriteBacklight :
    Obligations.OnlySetblAndConstructionWriteBacklight := by
  intro s t hstep hne
  rcases step_cases hstep with ⟨-, hrun⟩ | ⟨-, -, rfl⟩ |
    ⟨w, rest, i, hb, -, ho, hdecode, hexec⟩ | ⟨rest, -, -, -, rfl⟩ | ⟨a, rest, hb, -, ho, -, rfl⟩
  · -- the request in flight goes on
    exact absurd (finishRequest_keeps hrun).1 hne
  · -- an idle block waits
    exact absurd rfl hne
  · -- a request is accepted
    obtain ⟨hbl, -⟩ := exec_latches hexec
    by_cases hi : ∃ v, i = .setblI2c v
    · obtain ⟨v, rfl⟩ := hi
      exact ⟨hb, .inl ⟨w, rest, v, ho, hdecode, hbl⟩⟩
    · rw [flagAfter_of_ne_setblI2c (not_exists.mp hi)] at hbl
      exact absurd hbl hne
  · -- teardown
    exact absurd rfl hne
  · -- a construction
    exact ⟨hb, .inr ⟨a, rest, ho, rfl⟩⟩

end Sys2Proof.Machine

/-! Proofs of the statements about what every step keeps (10_state.md R16 to R19; 20_memory.md R36,
R39; 40_contract.md R78; 43_i2c.md R110, R112). -/

namespace Sys2Proof.Machine

/-! The shadows and the ghost flags are what the trace says. -/

/-- A longer trace is still recorded where the shadows and the flags follow its new events (R16 to
R19). -/
theorem State.recordsItsTrace_of_append {s t : State} {l : List Event} (hs : s.recordsItsTrace)
    (htrace : t.trace = s.trace ++ l) (hlines : t.lines = l.foldl linesAfter s.lines)
    (hpexp : t.pexp = l.foldl pexpAfter s.pexp)
    (hfailed : t.failed = (s.failed || l.any Event.isErr))
    (hcancelled : t.cancelled = (s.cancelled || l.any Event.isCancelled)) : t.recordsItsTrace := by
  obtain ⟨h1, h2, h3, h4⟩ := hs
  simp only [State.recordsItsTrace, htrace, List.foldl_append, List.any_append, hlines, hpexp,
    hfailed, hcancelled, ← h1, ← h2, ← h3, ← h4, and_self]

theorem afterAll_recordsItsTrace {s : State} (hs : s.recordsItsTrace) (ops : List Op) :
    (afterAll s ops).recordsItsTrace :=
  State.recordsItsTrace_of_append hs (afterAll_trace s ops) (afterAll_lines s ops)
    (afterAll_pexp s ops) (by simp [List.any_eq]) (by simp [List.any_eq])

theorem completeOk_recordsItsTrace {s : State} (hs : s.recordsItsTrace) :
    s.completeOk.recordsItsTrace :=
  State.recordsItsTrace_of_append hs (l := [.done .ok]) rfl rfl rfl (by simp [Event.isErr])
    (by simp [Event.isCancelled])

/-- A failure makes the operation's line or the expander unknown and sets `FAILED`, a cancellation
sets `CANCELLED`; their events say so (R121, R122, R130, R131). -/
theorem StopsAt.recordsItsTrace {op : Op} {s t : State} (h : StopsAt op s t)
    (hs : s.recordsItsTrace) : t.recordsItsTrace := by
  cases h with
  | pinFail p v e =>
    exact State.recordsItsTrace_of_append hs (l := [.pinFail p v e, .done (.err (.line p) e)])
      (by simp) rfl rfl (by simp [Event.isErr]) (by simp [Event.isCancelled])
  | busFail a bytes e =>
    exact State.recordsItsTrace_of_append hs (l := [.busFail a bytes e, .done (.err .i2c e)])
      (by simp) rfl rfl (by simp [Event.isErr]) (by simp [Event.isCancelled])
  | busCancel a bytes =>
    exact State.recordsItsTrace_of_append hs (l := [.cancelled (.busWrite a bytes)])
      (by simp) rfl rfl (by simp [Event.isErr]) (by simp [Event.isCancelled])
  | delayCancel n =>
    exact State.recordsItsTrace_of_append hs (l := [.cancelled (.delayMs n)])
      (by simp) rfl rfl (by simp [Event.isErr]) (by simp [Event.isCancelled])
  | busWait a bytes | delayWait n => exact hs

theorem finishRequest_recordsItsTrace {ops : List Op} {s t : State} (hs : s.recordsItsTrace)
    (h : finishRequest (perform ops s) = .next t) : t.recordsItsTrace := by
  rcases finishRequest_perform h with rfl | ⟨pre, op, post, -, hstop⟩
  · exact completeOk_recordsItsTrace (afterAll_recordsItsTrace hs ops)
  · exact hstop.recordsItsTrace (afterAll_recordsItsTrace hs pre)

theorem construct_recordsItsTrace (c : Config) : (State.construct c).recordsItsTrace :=
  ⟨rfl, rfl, rfl, rfl⟩

/-- Settles O34: acceptance writes no shadow and no trace, and every end of the steps writes what
its events say (R16 to R19). -/
theorem stepKeepsTheRecordOfTheTrace : Obligations.StepKeepsTheRecordOfTheTrace := by
  intro s t hs hstep
  rcases step_cases hstep with ⟨-, hrun⟩ | ⟨-, -, rfl⟩ | ⟨w, rest, i, -, -, -, hdecode, hexec⟩ |
    ⟨rest, -, -, -, rfl⟩ | ⟨a, rest, -, -, -, -, rfl⟩
  · -- the request in flight goes on
    exact finishRequest_recordsItsTrace hs hrun
  · -- an idle block waits
    exact hs
  · -- a request is accepted
    have hi := requestMode_of_decode hdecode
    rw [exec_request hi (ready_of_exec hi hexec)] at hexec
    exact finishRequest_recordsItsTrace (by simpa [State.recordsItsTrace] using hs) hexec
  · -- teardown
    exact hs
  · -- a construction
    exact construct_recordsItsTrace a.config

/-! The trace is within what the configuration may emit. -/

/-- An operation and its event are legal together (R36). -/
theorem Op.legal_event (c : Config) (op : Op) : op.event.legal c = op.legal c := by
  cases op <;> rfl

/-- A legal trace stays legal where legal events are added. -/
theorem State.traceLegal_of_append {s t : State} {l : List Event} (hs : s.traceLegal)
    (hcfg : t.cfg = s.cfg) (htrace : t.trace = s.trace ++ l)
    (hl : l.all (Event.legal s.cfg) = true) : t.traceLegal := by
  rw [State.traceLegal, hcfg, htrace, List.all_append, hs, hl]
  rfl

theorem afterAll_traceLegal {s : State} {ops : List Op} (hs : s.traceLegal)
    (hops : ∀ op ∈ ops, op.legal s.cfg = true) : (afterAll s ops).traceLegal := by
  refine State.traceLegal_of_append hs (afterAll_cfg s ops) (afterAll_trace s ops) ?_
  simpa [Op.legal_event] using hops

/-- What a legal operation adds that is not answered `ok` is legal (R120, R123, R130). -/
theorem StopsAt.traceLegal {op : Op} {s t : State} (h : StopsAt op s t) (hs : s.traceLegal)
    (hop : op.legal s.cfg = true) : t.traceLegal := by
  cases h with
  | pinFail p v e =>
    exact State.traceLegal_of_append hs (l := [.pinFail p v e, .done (.err (.line p) e)]) rfl
      (by simp) (by simpa [Event.legal, portLegal, Op.legal] using hop)
  | busFail a bytes e =>
    have hmode : (s.cfg.mode == .i2c) = true := by
      simp only [Op.legal, Bool.and_eq_true] at hop
      exact hop.1.1
    exact State.traceLegal_of_append hs (l := [.busFail a bytes e, .done (.err .i2c e)]) rfl
      (by simp) (by simp [Event.legal, portLegal, hop, hmode])
  | busCancel a bytes _ hx =>
    have hx : s.cfg.exec = .suspending := hx
    exact State.traceLegal_of_append hs (l := [.cancelled (.busWrite a bytes)]) rfl
      (by simp) (by simp [Event.legal, Op.suspends, hop, hx])
  | delayCancel n _ hx =>
    have hx : s.cfg.exec = .suspending := hx
    exact State.traceLegal_of_append hs (l := [.cancelled (.delayMs n)]) rfl
      (by simp) (by simp [Event.legal, Op.suspends, hop, hx])
  | busWait a bytes | delayWait n => exact hs

/-- A run of legal steps keeps the trace legal. -/
theorem finishRequest_traceLegal {ops : List Op} {s t : State} (hs : s.traceLegal)
    (hops : ∀ op ∈ ops, op.legal s.cfg = true)
    (h : finishRequest (perform ops s) = .next t) : t.traceLegal := by
  rcases finishRequest_perform h with rfl | ⟨pre, op, post, rfl, hstop⟩
  · exact State.traceLegal_of_append (l := [.done .ok]) (afterAll_traceLegal hs hops) rfl rfl rfl
  · refine hstop.traceLegal (afterAll_traceLegal hs fun o ho => hops o ?_) ?_
    · exact List.mem_append_left _ ho
    · simpa using hops op (by simp)

/-- The steps of `WRITE.4` write the lines of four-bit mode and hold for `HOLD_MS` (R36, R88). -/
theorem legal_write4Steps {c : Config} (hm : c.mode = .fourBit) (b : Byte) (d : Bool) :
    ∀ op ∈ write4Steps c b d, op.legal c = true := by
  cases d <;> simp [write4Steps, present4, pulseSteps, restoreRs, Op.legal, modePins, dataPins, hm]

/-- The steps of `WRITE.8` write the lines of eight-bit mode and hold for `HOLD_MS` (R36, R98). -/
theorem legal_write8Steps {c : Config} (hm : c.mode = .eightBit) (b : Byte) (d : Bool) :
    ∀ op ∈ write8Steps c b d, op.legal c = true := by
  cases d <;> simp [write8Steps, present8, pulseSteps, restoreRs, Op.legal, modePins, dataPins, hm]

/-- A bit of a mask that may be left out is a bit of the mask (R57). -/
theorem getLsbD_maskIf {flag : Bool} {mask : Byte} {i : Nat}
    (h : (maskIf flag mask).getLsbD i = true) : mask.getLsbD i = true := by
  cases flag with
  | true => exact h
  | false =>
    rw [maskIf, if_neg Bool.false_ne_true, BitVec.ofNat_eq_ofNat, BitVec.getLsbD_zero] at h
    cases h

/-- An expander byte of a nibble in bits 7:4 has nothing but that nibble and its two flag bits,
whatever the masks are (R57). -/
theorem plainImage_expanderByte (c : Config) {n : Byte} (d bl : Bool) (hn : n &&& 0x0F = 0) :
    plainImage c (expanderByte c n d bl) = true := by
  rw [plainImage, beq_iff_eq]
  refine BitVec.eq_of_getLsbD_eq fun i hi => ?_
  have hzero : (0 : Byte).getLsbD i = false := BitVec.getLsbD_zero
  simp only [BitVec.getLsbD_and, BitVec.getLsbD_not, BitVec.getLsbD_or, expanderByte,
    getLsbD_upperMask, hzero, hi, decide_true, Bool.true_and, Bool.and_true]
  by_cases h4 : 4 ≤ i
  · simp [h4]
  · have hlow := getLsbD_of_low_clear hn (Nat.not_le.mp h4)
    have hrs := getLsbD_maskIf (flag := d) (mask := c.rsBit) (i := i)
    have hbl := getLsbD_maskIf (flag := bl) (mask := c.blBit) (i := i)
    cases hr : (maskIf d c.rsBit).getLsbD i <;> cases hb : (maskIf bl c.blBit).getLsbD i <;>
      simp_all

/-- The steps of a nibble are transactions of the right shape to `ADDR` and the hold (R36, R39). -/
theorem legal_wrnibSteps {c : Config} (hm : c.mode = .i2c) {n : Byte} (hn : n &&& 0x0F = 0)
    (bl d : Bool) : ∀ op ∈ wrnibSteps c bl n d, op.legal c = true := by
  simp [wrnibSteps, Op.legal, transactionLegal, assertByte, hm, plainImage_expanderByte c d bl hn]

theorem legal_writeI2cSteps {c : Config} (hm : c.mode = .i2c) (bl : Bool) (b : Byte) (d : Bool) :
    ∀ op ∈ writeI2cSteps c bl b d, op.legal c = true := by
  intro op hop
  rcases List.mem_append.mp hop with hop | hop
  · exact legal_wrnibSteps hm (low_bits_up b) bl d op hop
  · exact legal_wrnibSteps hm (low_bits_dn b) bl d op hop

/-- Every step of the request in flight is one a block of the configuration may issue (R70). -/
theorem legal_requestSteps (s : State) : ∀ op ∈ requestSteps s, op.legal s.cfg = true := by
  cases hm : s.cfg.mode with
  | i2c =>
    rw [requestSteps_i2c hm]
    exact legal_writeI2cSteps hm s.bl s.byte s.isData
  | fourBit =>
    cases ho : s.op with
    | write => simpa only [requestSteps, hm, ho] using legal_write4Steps hm s.byte s.isData
    | setbl => simp [requestSteps, hm, ho]
  | eightBit =>
    cases ho : s.op with
    | write => simpa only [requestSteps, hm, ho] using legal_write8Steps hm s.byte s.isData
    | setbl => simp [requestSteps, hm, ho]

/-- Every step of an accepted request is one a block of the configuration may issue. -/
theorem legal_stepsOf {i : Instr} {m : Mode} {s : State} (hi : i.requestMode = some m)
    (hm : s.cfg.mode = m) : ∀ op ∈ stepsOf i s, op.legal s.cfg = true := by
  rw [← requestSteps_accepted hi hm, ← accepted_cfg i s]
  exact legal_requestSteps (accepted i s)

/-- Settles O35: the steps of every request are operations the configuration allows, and so is what
their failures and cancellations add (R36, R39, R120, R123). -/
theorem stepKeepsTheTraceLegal : Obligations.StepKeepsTheTraceLegal := by
  intro s t hs hstep
  rcases step_cases hstep with ⟨-, hrun⟩ | ⟨-, -, rfl⟩ | ⟨w, rest, i, -, -, -, hdecode, hexec⟩ |
    ⟨rest, -, -, -, rfl⟩ | ⟨a, rest, -, -, -, -, rfl⟩
  · -- the request in flight goes on
    exact finishRequest_traceLegal hs
      (fun op hop => legal_requestSteps s op (List.mem_of_mem_drop hop)) hrun
  · -- an idle block waits
    exact hs
  · -- a request is accepted
    have hi := requestMode_of_decode hdecode
    have hr := ready_of_exec hi hexec
    rw [exec_request hi hr] at hexec
    obtain ⟨-, -, hm⟩ := hr
    refine finishRequest_traceLegal ?_ ?_ hexec
    · simpa [State.traceLegal] using hs
    · rw [accepted_cfg]
      exact legal_stepsOf hi hm
  · -- teardown
    exact hs
  · -- a construction
    rfl

end Sys2Proof.Machine

/-! Proofs of the statements about a request in flight: where it waits, in what it leaves the lines
and the expander, and how it ends (40_contract.md R72, R78; 41_fourbit.md R85, R89; 42_eightbit.md
R99; 43_i2c.md R110, R112; 60_exceptions.md R122, R130). -/

namespace Sys2Proof.Machine

/-- An accepted request is a request in flight at its step 0 (R71). -/
theorem exec_eq_step_accepted {i : Instr} {m : Mode} {s : State} (hi : i.requestMode = some m)
    (hr : s.ready m) : exec i s = step (accepted i s) := by
  have hm := hr.2.2
  rw [exec_request hi hr, step_busy (accepted_busy_of_request hi), requestSteps_accepted hi hm,
    accepted_seq_of_request hi, List.drop_zero]

/-- Everything a step of a busy block can leave: the rest of the request done and `Done(Ok)`, or the
state of the first step that was not answered `ok`. -/
theorem step_busy_cases {s t : State} (hb : s.busy = true) (h : step s = .next t) :
    t = (afterAll s ((requestSteps s).drop s.seq)).completeOk ∨
      ∃ pre op post, (requestSteps s).drop s.seq = pre ++ op :: post ∧
        StopsAt op (afterAll s pre) t := by
  rw [step_busy hb] at h
  exact finishRequest_perform h

/-- Without a failure or a cancellation a step of a busy block completes the request, or waits at a
suspension point (R19). -/
theorem step_busy_undisturbed {s t : State} (hb : s.busy = true) (h : step s = .next t)
    (hu : t.undisturbed) :
    t = (afterAll s ((requestSteps s).drop s.seq)).completeOk ∨
      ∃ pre op post, (requestSteps s).drop s.seq = pre ++ op :: post ∧ op.suspends = true ∧
        t = afterAll s pre := by
  rcases step_busy_cases hb h with h | ⟨pre, op, post, hsteps, hstop⟩
  · exact .inl h
  · obtain ⟨ht, hop⟩ := hstop.eq_of_undisturbed hu
    exact .inr ⟨pre, op, post, hsteps, hop, ht⟩

/-- The step table is read from the parameters, the latches and the flag, which no operation writes
(R70). -/
theorem requestSteps_afterAll (s : State) (ops : List Op) :
    requestSteps (afterAll s ops) = requestSteps s := by
  simp [requestSteps]

/-- A request left in flight waits at a suspension point (R78). -/
theorem step_busy_waits {s t : State} (hb : s.busy = true) (h : step s = .next t) :
    t.waitsAtSuspension := by
  intro hbt
  rcases step_busy_cases hb h with rfl | ⟨pre, op, post, hsteps, hstop⟩
  · cases hbt
  · obtain ⟨rfl, hop⟩ := hstop.eq_of_busy hbt
    have hpending : (afterAll s pre).pendingOp = some op := by
      rw [State.pendingOp, requestSteps_afterAll, afterAll_seq, ← List.getElem?_drop, hsteps]
      simp
    rw [hpending]
    exact hop

/-- A list cut at something its end does not hold is cut before that end. -/
theorem cut_before {α : Type} {a : α} {xs ys pre post : List α} (hys : a ∉ ys)
    (h : xs ++ ys = pre ++ a :: post) : ∃ mid, xs = pre ++ a :: mid := by
  rcases List.append_eq_append_iff.mp h with ⟨as, rfl, has⟩ | ⟨bs, rfl, hbs⟩
  · exact absurd (by simp [has]) hys
  · cases bs with
    | nil =>
      rw [List.nil_append] at hbs
      exact absurd (hbs ▸ List.mem_cons_self) hys
    | cons b bs =>
      obtain ⟨rfl, -⟩ := List.cons_eq_cons.mp hbs
      exact ⟨bs, rfl⟩

/-! The parallel modes. -/

/-- The end of a parallel write: the last falling edge of enable, and register-select restored. -/
def closingSteps (d : Bool) : List Op := .pinWrite .en false :: restoreRs d

theorem suspends_of_mem_closingSteps {d : Bool} {op : Op} (h : op ∈ closingSteps d) :
    op.suspends = false := by
  cases d <;> simp [closingSteps, restoreRs] at h
  · rw [h]; rfl
  · rcases h with rfl | rfl <;> rfl

/-- The step table of a parallel write: register-select to the flag, steps that leave it alone, and
the end (R85, R88, R95, R98). -/
theorem requestSteps_parallelWrite {s : State} (hm : s.cfg.mode ≠ .i2c) (ho : s.op = .write) :
    ∃ middle, requestSteps s =
        .pinWrite .rs s.isData :: (middle ++ closingSteps s.isData) ∧
      ∀ v, .pinWrite .rs v ∉ middle := by
  cases hmode : s.cfg.mode with
  | i2c => exact absurd hmode hm
  | fourBit =>
    refine ⟨present4 (hi4 s.byte) ++ pulseSteps s.cfg ++ present4 (lo4 s.byte) ++
      [.pinWrite .en true, .delayMs s.cfg.holdMs], ?_, by simp [present4, pulseSteps]⟩
    simp only [requestSteps, hmode, ho]
    rfl
  | eightBit =>
    refine ⟨present8 s.byte ++ [.pinWrite .en true, .delayMs s.cfg.holdMs], ?_,
      by simp [present8]⟩
    simp only [requestSteps, hmode, ho]
    rfl

theorem requestSteps_parallelSetbl {s : State} (hm : s.cfg.mode ≠ .i2c) (ho : s.op = .setbl) :
    requestSteps s = [] := by
  cases hmode : s.cfg.mode with
  | i2c => exact absurd hmode hm
  | fourBit | eightBit => simp only [requestSteps, hmode, ho]

/-- A parallel request that waits is a write, past its first step and before its end (R78). -/
theorem drop_of_waiting {s : State} (hm : s.cfg.mode ≠ .i2c)
    (hwait : s.pendingOp.any Op.suspends = true) :
    ∃ middle, (requestSteps s).drop s.seq = middle ++ closingSteps s.isData ∧
      ∀ v, .pinWrite .rs v ∉ middle := by
  obtain ⟨op, hop, hsusp⟩ := Option.any_eq_true .. |>.mp hwait
  rw [State.pendingOp] at hop
  cases ho : s.op with
  | setbl => simp [requestSteps_parallelSetbl hm ho] at hop
  | write =>
    obtain ⟨middle, htable, hrs⟩ := requestSteps_parallelWrite hm ho
    rw [htable] at hop ⊢
    cases hk : s.seq with
    | zero =>
      rw [hk] at hop
      cases hop
      cases hsusp
    | succ k =>
      rw [hk, List.getElem?_cons_succ] at hop
      have hlt : k < middle.length := by
        by_contra hge
        rw [List.getElem?_append_right (Nat.le_of_not_lt hge)] at hop
        rw [suspends_of_mem_closingSteps (List.mem_of_getElem? hop)] at hsusp
        cases hsusp
      refine ⟨middle.drop k, ?_, fun v hv => hrs v (List.mem_of_mem_drop hv)⟩
      rw [List.drop_succ_cons, List.drop_append_of_le_length hlt.le]

/-- Register-select keeps its level over steps that leave it alone, and is low after the end, as
enable is (R85, R89). -/
theorem lines_after_closingSteps {middle : List Op} {d : Bool} {l : Lines}
    (hmiddle : ∀ v, .pinWrite .rs v ∉ middle) (hrs : l.rs = .known d) :
    (((middle ++ closingSteps d).map Op.event).foldl linesAfter l).rs = .known false ∧
      (((middle ++ closingSteps d).map Op.event).foldl linesAfter l).en = .known false := by
  have hkeep := (foldl_linesAfter_rs hmiddle l).trans hrs
  rw [List.map_append, List.foldl_append]
  cases d with
  | false => exact ⟨hkeep, rfl⟩
  | true => exact ⟨rfl, rfl⟩

/-- While a parallel write waits, register-select is at the flag: the steps before the pending one
leave it alone (R89). -/
theorem rs_of_cut {middle pre post : List Op} {op : Op} {d : Bool} {l : Lines}
    (hmiddle : ∀ v, .pinWrite .rs v ∉ middle) (hrs : l.rs = .known d)
    (hcut : middle ++ closingSteps d = pre ++ op :: post) (hop : op.suspends = true) :
    ((pre.map Op.event).foldl linesAfter l).rs = .known d := by
  have hend : op ∉ closingSteps d := fun h => by
    rw [suspends_of_mem_closingSteps h] at hop
    cases hop
  obtain ⟨mid, rfl⟩ := cut_before hend hcut
  rw [foldl_linesAfter_rs fun v hv => hmiddle v (List.mem_append_left _ hv), hrs]

/-- Lines that are low are not high. -/
theorem Lines.notHigh_of_low {l : Lines} (h : l.rs = .known false ∧ l.en = .known false) :
    l.rs ≠ .known true ∧ l.en ≠ .known true := by
  simp [h]

/-- A parallel request from its step 0 with the lines at rest (R85, R89, R95, R99). -/
theorem linesAtRest_of_step_from_start {s t : State} (hb : s.busy = true) (h : step s = .next t)
    (hm : s.cfg.mode ≠ .i2c) (hseq : s.seq = 0) (hrs : s.lines.rs ≠ .known true)
    (hen : s.lines.en ≠ .known true) : t.linesAtRest := by
  intro _ hu
  cases ho : s.op with
  | setbl =>
    have hnone : (requestSteps s).drop s.seq = [] := by
      rw [requestSteps_parallelSetbl hm ho, List.drop_nil]
    rcases step_busy_undisturbed hb h hu with rfl | ⟨pre, op, post, hsteps, -, -⟩
    · rw [hnone]
      exact ⟨fun _ => ⟨hrs, hen⟩, nofun⟩
    · simp [hnone] at hsteps
  | write =>
    obtain ⟨middle, htable, hmiddle⟩ := requestSteps_parallelWrite hm ho
    rw [← List.drop_zero (l := requestSteps s), ← hseq] at htable
    rcases step_busy_undisturbed hb h hu with rfl | ⟨pre, op, post, hsteps, hop, rfl⟩
    · refine ⟨fun _ => Lines.notHigh_of_low ?_, nofun⟩
      simpa [htable] using lines_after_closingSteps
        (l := linesAfter s.lines (Op.pinWrite .rs s.isData).event) hmiddle rfl
    · rw [htable] at hsteps
      cases pre with
      | nil =>
        -- the first step is no suspension point
        cases hsteps
        cases hop
      | cons o pre =>
        obtain ⟨rfl, hcut⟩ := List.cons_eq_cons.mp hsteps
        refine ⟨by simp [hb], fun _ => ⟨by simp [ho], ?_⟩⟩
        simpa using rs_of_cut (l := linesAfter s.lines (Op.pinWrite .rs s.isData).event)
          hmiddle rfl hcut hop

/-- A parallel request from a wait with register-select at its flag (R85, R89, R95, R99). -/
theorem linesAtRest_of_step_from_wait {s t : State} (hb : s.busy = true) (h : step s = .next t)
    (hm : s.cfg.mode ≠ .i2c) (hwait : s.pendingOp.any Op.suspends = true) (ho : s.op = .write)
    (hrs : s.lines.rs = .known s.isData) : t.linesAtRest := by
  intro _ hu
  obtain ⟨middle, hdrop, hmiddle⟩ := drop_of_waiting hm hwait
  rcases step_busy_undisturbed hb h hu with rfl | ⟨pre, op, post, hsteps, hop, rfl⟩
  · refine ⟨fun _ => Lines.notHigh_of_low ?_, nofun⟩
    simpa [hdrop] using lines_after_closingSteps hmiddle hrs
  · rw [hdrop] at hsteps
    refine ⟨by simp [hb], fun _ => ⟨by simp [ho], ?_⟩⟩
    simpa using rs_of_cut hmiddle hrs hsteps hop

/-! `I2C` mode. -/

/-- The step table of a request of `I2C` mode up to its last transaction (R106). -/
def writeI2cOpening (c : Config) (bl : Bool) (b : Byte) (d : Bool) : List Op :=
  let x := expanderByte c (dn b) d bl
  wrnibSteps c bl (up b) d ++ [.busWrite c.addr [x, assertByte c x], .delayMs c.holdMs]

theorem writeI2cSteps_eq (c : Config) (bl : Bool) (b : Byte) (d : Bool) :
    writeI2cSteps c bl b d =
      writeI2cOpening c bl b d ++ [.busWrite c.addr [expanderByte c (dn b) d bl]] := rfl

/-- The rest of a request of `I2C` mode ends with its last byte on the expander (R109, R111). -/
theorem pexp_after_writeI2cSteps {c : Config} {bl d : Bool} {b : Byte} {k : Nat} (hk : k < 6)
    (y : Shadow Byte) :
    (((writeI2cSteps c bl b d).drop k).map Op.event).foldl pexpAfter y =
      .known (expanderByte c (dn b) d bl) := by
  have hlen : k ≤ (writeI2cOpening c bl b d).length := Nat.le_of_lt_succ hk
  rw [writeI2cSteps_eq, List.drop_append_of_le_length hlen, List.map_append, List.foldl_append]
  rfl

/-- An expander byte rests (R110, R112). -/
theorem expanderRests_expanderByte {c : Config} (hc : c.masksLegal = true) {n : Byte}
    (hn : n &&& 0x0F = 0) (d bl : Bool) :
    expanderRests c bl (.known (expanderByte c n d bl)) = true := by
  obtain ⟨-, hen, hbl, -⟩ := control_bits hc n d bl hn
  simp [expanderRests, hen, hbl]

/-- What a step of a busy block in `I2C` mode leaves the expander in (R110, R112). -/
theorem step_busy_expanderAtRest {s t : State} (hb : s.busy = true) (h : step s = .next t)
    (hwf : s.cfg.wf = true) (hseq : s.cfg.mode = .i2c → s.seq < 6) : t.expanderAtRest := by
  intro hm hu hbt
  rcases step_busy_undisturbed hb h hu with rfl | ⟨pre, op, post, -, -, rfl⟩
  · have hm : s.cfg.mode = .i2c := by simpa using hm
    have hc : s.cfg.masksLegal = true := by simpa [Config.wf, hm] using hwf
    rw [State.completeOk_pexp, afterAll_pexp, requestSteps_i2c hm,
      pexp_after_writeI2cSteps (hseq hm)]
    simpa using expanderRests_expanderByte hc (low_bits_dn s.byte) s.isData s.bl
  · simp [hb] at hbt

/-- A request of `I2C` mode that waits is at one of its six steps (R14). -/
theorem seq_lt_of_waiting {s : State} (hm : s.cfg.mode = .i2c)
    (hwait : s.pendingOp.any Op.suspends = true) : s.seq < 6 := by
  obtain ⟨op, hop, -⟩ := Option.any_eq_true .. |>.mp hwait
  obtain ⟨hlt, -⟩ := List.getElem?_eq_some_iff.mp hop
  rw [requestSteps_i2c hm] at hlt
  exact hlt

/-- A run that is undisturbed after a step of a busy block was so before (R19). -/
theorem undisturbed_of_step_busy {s t : State} (hb : s.busy = true) (h : step s = .next t)
    (hu : t.undisturbed) : s.undisturbed := by
  rcases step_busy_undisturbed hb h hu with rfl | ⟨pre, op, post, -, -, rfl⟩
  · simpa [State.undisturbed] using hu
  · simpa [State.undisturbed] using hu

/-- What a step of a busy block keeps and leaves at rest, where it leaves the lines at rest. -/
theorem step_busy_atRest {s t : State} (hb : s.busy = true) (h : step s = .next t)
    (hwf : s.cfg.wf = true) (hlines : s.cfg.mode ≠ .i2c → s.undisturbed → t.linesAtRest)
    (hseq : s.cfg.mode = .i2c → s.seq < 6) : t.atRest := by
  have hcfg : t.cfg = s.cfg := by
    rw [step_busy hb] at h
    exact (finishRequest_keeps h).2.1
  refine ⟨by rw [hcfg, hwf], step_busy_waits hb h, fun hm hu => ?_,
    step_busy_expanderAtRest hb h hwf hseq⟩
  exact hlines (hcfg ▸ hm) (undisturbed_of_step_busy hb h hu) hm hu

/-- A block just constructed is at rest (R23). -/
theorem construct_atRest {c : Config} (hwf : c.wf = true) : (State.construct c).atRest :=
  ⟨hwf, nofun, fun _ _ => ⟨fun _ => ⟨nofun, nofun⟩, nofun⟩, fun _ _ _ => rfl⟩

/-- Settles O36: a request goes on from its step 0 with the lines at rest, or from a wait with
register-select at its flag; either way it ends at rest or waits (R78, R85, R110). -/
theorem stepKeepsTheBlockAtRest : Obligations.StepKeepsTheBlockAtRest := by
  intro s t hs hstep
  have ⟨hwf, hwait, hlines, hexpander⟩ := hs
  rcases step_cases hstep with ⟨hb, -⟩ | ⟨-, -, rfl⟩ | ⟨w, rest, i, hb, -, -, hdecode, hexec⟩ |
    ⟨rest, hb, -, -, rfl⟩ | ⟨a, rest, -, -, -, hwf', rfl⟩
  · -- the request in flight goes on
    refine step_busy_atRest hb hstep hwf (fun hm hu => ?_) fun hm => seq_lt_of_waiting hm (hwait hb)
    obtain ⟨ho, hrs⟩ := (hlines hm hu).2 hb
    exact linesAtRest_of_step_from_wait hb hstep hm (hwait hb) ho hrs
  · -- an idle block waits
    exact hs
  · -- a request is accepted
    have hi := requestMode_of_decode hdecode
    rw [exec_eq_step_accepted hi (ready_of_exec hi hexec)] at hexec
    have hbusy := accepted_busy_of_request (s := { s with owner := rest }) hi
    have hseq := accepted_seq_of_request (s := { s with owner := rest }) hi
    refine step_busy_atRest hbusy hexec (by simpa using hwf) (fun hm hu => ?_)
      fun _ => by simp [hseq]
    obtain ⟨hrs, hen⟩ := (hlines (by simpa using hm) (by simpa [State.undisturbed] using hu)).1 hb
    exact linesAtRest_of_step_from_start hbusy hexec hm hseq (by simpa using hrs)
      (by simpa using hen)
  · -- teardown
    exact ⟨hwf, fun hbusy => hwait hbusy, hlines, hexpander⟩
  · -- a construction
    exact construct_atRest hwf'

/-- Settles O37: every shadow is unknown, no flag is set and nothing is emitted (R23, R145). -/
theorem constructedBlocksMeetTheInvariants : Obligations.ConstructedBlocksMeetTheInvariants :=
  have hconstruct (c : Config) (hwf : c.wf = true) : (State.construct c).recordsItsTrace ∧
      (State.construct c).traceLegal ∧ (State.construct c).atRest :=
    ⟨construct_recordsItsTrace c, rfl, construct_atRest hwf⟩
  ⟨hconstruct, hconstruct .standard (by decide)⟩

/-! How a request ends. -/

/-- A list of operations answered `ok` before a move changes nothing about how it ends (R72). -/
theorem completesOnce_of_oks_before {s t : State} {ops : List Op} {l : List Event}
    (htrace : t.trace = (afterAll s ops).trace ++ l) (h : (afterAll s ops).completesOnce t) :
    s.completesOnce t := by
  have hnew : s.newEvents t = ops.map Op.event ++ l :=
    State.newEvents_of_trace (by simp [htrace])
  have hnew' : (afterAll s ops).newEvents t = l := State.newEvents_of_trace htrace
  have hresponses : responses (s.newEvents t) = responses l := by
    rw [hnew, responses_append, responses_map_event, List.nil_append]
  have hlast {e : Event} (h : l.getLast? = some e) : (s.newEvents t).getLast? = some e := by
    simp [hnew, List.getLast?_append, h]
  rw [State.completesOnce, hnew', afterAll_failed, afterAll_cancelled] at h
  rw [State.completesOnce, hresponses]
  rcases h with h | ⟨hb, hc, r, hr, hl, hf⟩ | ⟨hb, hr, hc, hf, o, hl⟩
  · exact .inl h
  · exact .inr (.inl ⟨hb, hc, r, hr, hlast hl, hf⟩)
  · exact .inr (.inr ⟨hb, hr, hc, hf, o, hlast hl⟩)

/-- The completion `Ok` is delivered once (R15, R72). -/
theorem completeOk_completesOnce (s : State) : s.completesOnce s.completeOk := by
  have hnew : s.newEvents s.completeOk = [.done .ok] := State.newEvents_of_trace (by simp)
  refine .inr (.inl ⟨rfl, rfl, .ok, ?_, ?_, by simp⟩)
  · rw [hnew]; rfl
  · rw [hnew]; rfl

/-- An operation that is not answered `ok` delivers its error once, or cancels the request, or
leaves it in flight (R122, R130, R133). -/
theorem StopsAt.completesOnce {op : Op} {s t : State} (h : StopsAt op s t) (hb : s.busy = true) :
    s.completesOnce t := by
  cases h with
  | pinFail p v e =>
    rw [State.completesOnce, State.newEvents_of_trace
      (l := [.pinFail p v e, .done (.err (.line p) e)]) (by simp)]
    exact .inr (.inl ⟨rfl, rfl, _, rfl, rfl, by simp⟩)
  | busFail a bytes e =>
    rw [State.completesOnce, State.newEvents_of_trace
      (l := [.busFail a bytes e, .done (.err .i2c e)]) (by simp)]
    exact .inr (.inl ⟨rfl, rfl, _, rfl, rfl, by simp⟩)
  | busCancel a bytes =>
    rw [State.completesOnce, State.newEvents_of_trace
      (l := [.cancelled (.busWrite a bytes)]) (by simp)]
    exact .inr (.inr ⟨rfl, rfl, rfl, rfl, _, rfl⟩)
  | delayCancel n =>
    rw [State.completesOnce, State.newEvents_of_trace (l := [.cancelled (.delayMs n)]) (by simp)]
    exact .inr (.inr ⟨rfl, rfl, rfl, rfl, _, rfl⟩)
  | busWait a bytes | delayWait n =>
    rw [State.completesOnce, State.newEvents_of_trace (l := []) (by simp)]
    exact .inl ⟨hb, rfl, rfl, rfl⟩

/-- A request in flight ends in one of the three ways (R72, R122, R130). -/
theorem step_busy_completesOnce {s t : State} (hb : s.busy = true) (h : step s = .next t) :
    s.completesOnce t := by
  rcases step_busy_cases hb h with rfl | ⟨pre, op, post, -, hstop⟩
  · exact completesOnce_of_oks_before (State.completeOk_trace _) (completeOk_completesOnce _)
  · obtain ⟨l, htrace, -⟩ := hstop.busBytes
    exact completesOnce_of_oks_before htrace (hstop.completesOnce (by simp [hb]))

/-- Settles O22: an accepted request is a request in flight, and every end of one delivers one
completion or none (R15, R72, R122, R130). -/
theorem oneCompletionPerRequest : Obligations.OneCompletionPerRequest := by
  refine ⟨fun i m s t hi h => ?_, fun s t hb h => step_busy_completesOnce hb h⟩
  rw [exec_eq_step_accepted hi (ready_of_exec hi h)] at h
  simpa [State.completesOnce, State.newEvents]
    using step_busy_completesOnce (accepted_busy_of_request hi) h

end Sys2Proof.Machine

/-! Proofs of the statement about the enable pulse (20_memory.md R42; 40_contract.md R74). -/

namespace Sys2Proof.Machine

/-- The events an operation adds that is not answered `ok`. -/
inductive StopEvents : Op → List Event → Prop where
  | pinFail (p v e) :
      StopEvents (.pinWrite p v) [.pinFail p v e, .done (.err (.line p) e)]
  | busFail (a bytes e) :
      StopEvents (.busWrite a bytes) [.busFail a bytes e, .done (.err .i2c e)]
  | busCancel (a bytes) : StopEvents (.busWrite a bytes) [.cancelled (.busWrite a bytes)]
  | delayCancel (n) : StopEvents (.delayMs n) [.cancelled (.delayMs n)]
  | busWait (a bytes) : StopEvents (.busWrite a bytes) []
  | delayWait (n) : StopEvents (.delayMs n) []

theorem StopsAt.stopEvents {op : Op} {s t : State} (h : StopsAt op s t) :
    ∃ l, StopEvents op l ∧ t.trace = s.trace ++ l := by
  cases h with
  | pinFail p v e => exact ⟨_, .pinFail p v e, by simp⟩
  | busFail a bytes e => exact ⟨_, .busFail a bytes e, by simp⟩
  | busCancel a bytes => exact ⟨_, .busCancel a bytes, by simp⟩
  | delayCancel n => exact ⟨_, .delayCancel n, by simp⟩
  | busWait a bytes => exact ⟨_, .busWait a bytes, by simp⟩
  | delayWait n => exact ⟨_, .delayWait n, by simp⟩

/-- The events a run of a list of steps can add, step by step: an internal form ends without an
event, a request with `Done(Ok)` (R72, R73). -/
inductive RunEvents : List Op → List Event → Prop where
  | internalOver : RunEvents [] []
  | requestOver : RunEvents [] [.done .ok]
  | step (op) {ops l} (h : RunEvents ops l) : RunEvents (op :: ops) (op.event :: l)
  | stop (op ops) {l} (h : StopEvents op l) : RunEvents (op :: ops) l

theorem RunEvents.append {ops : List Op} {l : List Event} (pre : List Op) (h : RunEvents ops l) :
    RunEvents (pre ++ ops) (pre.map Op.event ++ l) := by
  induction pre with
  | nil => exact h
  | cons op pre ih => exact .step op ih

theorem RunEvents.of_oks {ops : List Op} {l : List Event} (h : RunEvents [] l) :
    RunEvents ops (ops.map Op.event ++ l) := by
  simpa using h.append ops

theorem RunEvents.of_stopsAt {pre post : List Op} {op : Op} {s t : State}
    (h : StopsAt op (afterAll s pre) t) : RunEvents (pre ++ op :: post) (s.newEvents t) := by
  obtain ⟨l, hl, htrace⟩ := h.stopEvents
  rw [State.newEvents_of_trace (l := pre.map Op.event ++ l) (by simp [htrace])]
  exact (RunEvents.stop op post hl).append pre

/-- What an instruction adds to the trace are events of a run of its steps. -/
theorem exec_runEvents {i : Instr} {s t : State} (h : exec i s = .next t) :
    RunEvents (stepsOf i s) (s.newEvents t) := by
  rcases exec_cases h with rfl | ⟨-, rfl⟩ | ⟨pre, op, post, hsteps, hstop⟩
  · rw [State.newEvents_of_trace (l := (stepsOf i s).map Op.event ++ [.done .ok]) (by simp)]
    exact .of_oks .requestOver
  · rw [State.newEvents_of_trace (l := (stepsOf i s).map Op.event ++ []) (by simp)]
    exact .of_oks .internalOver
  · rw [hsteps]
    simpa [State.newEvents] using RunEvents.of_stopsAt (post := post) hstop

/-- What a step of a busy block adds to the trace are events of a run of the rest of its steps. -/
theorem step_busy_runEvents {s t : State} (hb : s.busy = true) (h : step s = .next t) :
    RunEvents ((requestSteps s).drop s.seq) (s.newEvents t) := by
  rcases step_busy_cases hb h with rfl | ⟨pre, op, post, hsteps, hstop⟩
  · rw [State.newEvents_of_trace (l := ((requestSteps s).drop s.seq).map Op.event ++ [.done .ok])
      (by simp)]
    exact .of_oks .requestOver
  · rw [hsteps]
    exact RunEvents.of_stopsAt hstop

/-- Steps of a parallel mode in which every rising edge of enable and every delay is part of a whole
pulse (R74). -/
inductive PulseTable (hold : Millis) : List Op → Prop where
  | nil : PulseTable hold []
  | pin (p v) {ops} (hp : ¬ (p = .en ∧ v = true)) (h : PulseTable hold ops) :
      PulseTable hold (.pinWrite p v :: ops)
  | pulse {ops} (h : PulseTable hold ops) :
      PulseTable hold (.pinWrite .en true :: .delayMs hold :: .pinWrite .en false :: ops)

theorem PulseTable.append {hold : Millis} {xs ys : List Op} (hxs : PulseTable hold xs)
    (hys : PulseTable hold ys) : PulseTable hold (xs ++ ys) := by
  induction hxs with
  | nil => exact hys
  | pin p v hp _ ih => exact .pin p v hp ih
  | pulse _ ih => exact .pulse ih

/-- Writes of lines other than enable are no part of a pulse (R31, R32). -/
theorem PulseTable.of_lines {hold : Millis} {ops : List Op}
    (hpins : ∀ op ∈ ops, op.suspends = false) (hen : ∀ v, .pinWrite .en v ∉ ops) :
    PulseTable hold ops := by
  induction ops with
  | nil => exact .nil
  | cons op ops ih =>
    have hrest := ih (fun o ho => hpins o (List.mem_cons_of_mem _ ho))
      fun v hv => hen v (List.mem_cons_of_mem _ hv)
    cases op with
    | pinWrite p v => exact .pin p v (fun ⟨hp, _⟩ => hen v (hp ▸ List.mem_cons_self)) hrest
    | busWrite a bytes | delayMs n => cases hpins _ List.mem_cons_self

theorem pulseTable_pulseSteps (c : Config) : PulseTable c.holdMs (pulseSteps c) := .pulse .nil

theorem pulseTable_present4 (hold : Millis) (n : BitVec 4) : PulseTable hold (present4 n) :=
  .of_lines (by simp [present4, Op.suspends]) (by simp [present4])

theorem pulseTable_present8 (hold : Millis) (b : Byte) : PulseTable hold (present8 b) :=
  .of_lines (by simp [present8, Op.suspends]) (by simp [present8])

theorem pulseTable_restoreRs (hold : Millis) (d : Bool) : PulseTable hold (restoreRs d) :=
  .of_lines (by cases d <;> simp [restoreRs, Op.suspends]) (by cases d <;> simp [restoreRs])

theorem pulseTable_write4Steps (c : Config) (b : Byte) (d : Bool) :
    PulseTable c.holdMs (write4Steps c b d) :=
  .pin .rs d (by simp) (((((pulseTable_present4 _ _).append (pulseTable_pulseSteps c)).append
    (pulseTable_present4 _ _)).append (pulseTable_pulseSteps c)).append (pulseTable_restoreRs _ d))

theorem pulseTable_write8Steps (c : Config) (b : Byte) (d : Bool) :
    PulseTable c.holdMs (write8Steps c b d) :=
  .pin .rs d (by simp) (((pulseTable_present8 _ b).append (pulseTable_pulseSteps c)).append
    (pulseTable_restoreRs _ d))

/-- The steps of every instruction of a parallel block are whole pulses and other lines (R74). -/
theorem pulseTable_stepsOf {i : Instr} {s t : State} (hm : s.cfg.mode ≠ .i2c)
    (h : exec i s = .next t) : PulseTable s.cfg.holdMs (stepsOf i s) := by
  cases i with
  | write4 b d => exact pulseTable_write4Steps s.cfg b d
  | write8 b d => exact pulseTable_write8Steps s.cfg b d
  | setbl4 v | setbl8 v => exact .nil
  | pulse => exact pulseTable_pulseSteps s.cfg
  | writeI2c b d => exact absurd (ready_of_exec (i := .writeI2c b d) rfl h).2.2 hm
  | setblI2c v => exact absurd (ready_of_exec (i := .setblI2c v) rfl h).2.2 hm
  | wrnibI2c n d => exact absurd (by simpa using (inFlight_of_exec_wrnibI2c h).2.2) hm

theorem pulseTable_requestSteps {s : State} (hm : s.cfg.mode ≠ .i2c) :
    PulseTable s.cfg.holdMs (requestSteps s) := by
  cases ho : s.op with
  | setbl => rw [requestSteps_parallelSetbl hm ho]; exact .nil
  | write =>
    cases hmode : s.cfg.mode with
    | i2c => exact absurd hmode hm
    | fourBit => simpa only [requestSteps, hmode, ho] using pulseTable_write4Steps _ _ _
    | eightBit => simpa only [requestSteps, hmode, ho] using pulseTable_write8Steps _ _ _

/-- A suspension point of such steps is the hold of a pulse, with the falling edge to come (R74,
R78). -/
theorem PulseTable.drop_at_suspension {hold : Millis} {ops : List Op} (h : PulseTable hold ops)
    {k : Nat} (hk : ops[k]?.any Op.suspends = true) :
    ∃ rest, ops.drop k = .delayMs hold :: .pinWrite .en false :: rest ∧ PulseTable hold rest := by
  induction h generalizing k with
  | nil => simp at hk
  | pin p v _ _ ih =>
    cases k with
    | zero => cases hk
    | succ k => exact ih hk
  | @pulse ops h ih =>
    match k, hk with
    | 0, hk => cases hk
    | 1, _ => exact ⟨ops, rfl, h⟩
    | 2, hk => cases hk
    | k + 3, hk => exact ih hk

/-- A run from the hold of a pulse begins with the rest of the pulse (R42, R74). -/
theorem RunEvents.restOfPulse {hold : Millis} {ops : List Op} {l : List Event}
    (h : RunEvents (.delayMs hold :: .pinWrite .en false :: ops) l) : restOfPulse hold l := by
  cases h with
  | stop _ _ hstop =>
    cases hstop with
    | delayCancel => exact .inr (.inl rfl)
    | delayWait => exact .inl rfl
  | step _ h =>
    cases h with
    | stop _ _ hstop =>
      cases hstop with
      | pinFail _ _ e => exact .inr (.inr (.inr ⟨e, rfl⟩))
    | @step _ _ more h => exact .inr (.inr (.inl ⟨more, rfl⟩))

/-- What an operation adds that is not answered `ok` holds no rising edge. -/
theorem StopEvents.no_rising {op : Op} {pre post : List Event} :
    ¬ StopEvents op (pre ++ .pin .en true :: post) := by
  generalize hl : pre ++ Event.pin .en true :: post = l
  intro h
  have hmem : Event.pin .en true ∈ l := by simp [← hl]
  cases h <;> simp at hmem

/-- A rising edge in what a run adds is that of its first step, or comes in the run of the rest. -/
theorem RunEvents.rising_cases {op : Op} {ops : List Op} {pre post : List Event}
    (h : RunEvents (op :: ops) (pre ++ .pin .en true :: post)) :
    (op = .pinWrite .en true ∧ RunEvents ops post) ∨
      ∃ pre', RunEvents ops (pre' ++ .pin .en true :: post) := by
  generalize hl : pre ++ Event.pin .en true :: post = l at h
  cases h with
  | stop _ _ hstop => exact absurd (hl ▸ hstop) StopEvents.no_rising
  | step _ h =>
    cases pre with
    | nil =>
      obtain ⟨hop, rfl⟩ := List.cons_eq_cons.mp hl
      cases op <;> cases hop
      exact .inl ⟨rfl, h⟩
    | cons e pre =>
      obtain ⟨-, rfl⟩ := List.cons_eq_cons.mp hl
      exact .inr ⟨pre, h⟩

/-- Every rising edge of enable is followed by the rest of its pulse (R42, R74). -/
theorem PulseTable.restOfPulse {hold : Millis} {ops : List Op} {pre post : List Event}
    (hops : PulseTable hold ops) (h : RunEvents ops (pre ++ .pin .en true :: post)) :
    restOfPulse hold post := by
  induction hops generalizing pre with
  | nil =>
    generalize hl : pre ++ Event.pin .en true :: post = l at h
    have hmem : Event.pin .en true ∈ l := by simp [← hl]
    cases h <;> simp at hmem
  | pin p v hp _ ih =>
    rcases h.rising_cases with ⟨hop, -⟩ | ⟨pre', h⟩
    · cases hop
      exact absurd ⟨rfl, rfl⟩ hp
    · exact ih h
  | pulse _ ih =>
    rcases h.rising_cases with ⟨-, h⟩ | ⟨pre', h⟩
    · exact h.restOfPulse
    · -- neither the hold nor the falling edge is a rising edge
      rcases h.rising_cases with ⟨hop, -⟩ | ⟨pre', h⟩
      · cases hop
      · rcases h.rising_cases with ⟨hop, -⟩ | ⟨pre', h⟩
        · cases hop
        · exact ih h

/-- Settles O49: the steps of a parallel block are whole pulses and other lines, and a request that
waits is in the hold of a pulse (R42, R74). -/
theorem nothingIsWrittenUnderAHighEnable : Obligations.NothingIsWrittenUnderAHighEnable := by
  refine ⟨fun i s t pre post hm h hnew => ?_, fun s t hm hb hwait h => ?_⟩
  · have hrun := exec_runEvents h
    rw [hnew] at hrun
    exact (pulseTable_stepsOf hm h).restOfPulse hrun
  · have hrun := step_busy_runEvents hb h
    obtain ⟨rest, hdrop, hrest⟩ := (pulseTable_requestSteps hm).drop_at_suspension (hwait hb)
    rw [hdrop] at hrun
    refine ⟨hrun.restOfPulse, fun pre post hnew => ?_⟩
    -- the rising edge of the pulse it waits in belongs before what it adds
    refine (PulseTable.pulse hrest).restOfPulse (pre := .pin .en true :: pre) ?_
    rw [hnew] at hrun
    exact .step (.pinWrite .en true) hrun

end Sys2Proof.Machine

/-! Proofs of the statements about the whole next state of each form, answered `ok` throughout
(40_contract.md R72, R74; 41_fourbit.md R85, R87; 42_eightbit.md R95, R97; 43_i2c.md R105 to
R107). -/

namespace Sys2Proof.Machine

/-- The state after steps that are all answered `ok`, field by field (R16, R18). -/
theorem afterAll_eq (s : State) (ops : List Op) : afterAll s ops = { s with
    seq := s.seq + ops.length
    lines := (ops.map Op.event).foldl linesAfter s.lines
    pexp := (ops.map Op.event).foldl pexpAfter s.pexp
    trace := s.trace ++ ops.map Op.event
    env := s.env.drop ops.length } :=
  State.eq_of_fields (by simp)

/-- The next state of a request that is answered `ok` throughout: the acceptance, the events of its
step table and `Done(Ok)` (R72). -/
theorem exec_request_ok_eq {i : Instr} {m : Mode} {s : State} {n : Nat}
    (hi : i.requestMode = some m) (hr : s.ready m) (hn : (stepsOf i s).length = n)
    (hok : s.answersOk n) : exec i s = .next { accepted i s with
      busy := s.busy
      seq := n
      lines := (requestEvents s i).foldl linesAfter s.lines
      pexp := (requestEvents s i).foldl pexpAfter s.pexp
      trace := s.trace ++ requestEvents s i ++ [.done .ok]
      env := s.env.drop n } := by
  have ⟨_, hb, _⟩ := hr
  rw [exec_request_ok hi hr (hn ▸ hok), afterAll_eq, map_event_stepsOf s hi]
  refine congrArg Host.Outcome.next (State.eq_of_fields ?_)
  simp [hn, hb, accepted_seq_of_request hi]

/-- Settles O9: the events of the step table, and the lines they leave (R88, R89). -/
theorem write4CompletesWithBothNibbles : Obligations.Write4CompletesWithBothNibbles := by
  intro b d s hr hok
  have hnext := exec_request_ok_eq (i := .write4 b d) rfl hr (by cases d <;> rfl) hok
  exact ⟨if d then 16 else 15, hnext.trans (by cases d <;> rfl)⟩

/-- Settles O11: the events of the step table, and the lines they leave (R98, R99). -/
theorem write8CompletesWithTheByte : Obligations.Write8CompletesWithTheByte := by
  intro b d s hr hok
  have hnext := exec_request_ok_eq (i := .write8 b d) rfl hr (by cases d <;> rfl) hok
  exact ⟨if d then 13 else 12, hnext.trans (by cases d <;> rfl)⟩

/-- Settles O12: the events of the step table, of which the last leaves the expander at the byte of
the lower nibble (R106, R108). -/
theorem writeI2cCompletesWithBothNibbles : Obligations.WriteI2cCompletesWithBothNibbles :=
  fun b d _ hr hok => ⟨_, exec_request_ok_eq (i := .writeI2c b d) rfl hr rfl hok⟩

/-- The bytes of the command write of 0x00 hold the backlight bit alone (R107). -/
theorem upperImage_command_zero (c : Config) (v : Bool) :
    upperImage c v 0#8 false = if v then c.blBit else 0 := by
  simp [upperImage]

theorem lowerImage_command_zero (c : Config) (v : Bool) :
    lowerImage c v 0#8 false = if v then c.blBit else 0 := by
  simp [lowerImage]

/-- Settles O14: the flag is stored at the acceptance, and both nibbles of 0x00 are the backlight
bit alone (R107). -/
theorem setblI2cStoresAndPushesTheFlag : Obligations.SetblI2cStoresAndPushesTheFlag := by
  intro v s hr hok x
  have hnext := exec_request_ok_eq (i := .setblI2c v) rfl hr (n := 6) rfl hok
  refine ⟨6, hnext.trans (congrArg Host.Outcome.next (State.eq_of_fields ?_))⟩
  simp [accepted, requestEvents, writeI2cEvents, upperImage_command_zero, lowerImage_command_zero,
    linesAfter, pexpAfter, latchAfter, x]

/-- A `SETBL` of a parallel mode has no step: it is accepted and completes `Ok` (R87, R97). -/
theorem exec_setbl_without_steps {i : Instr} {m : Mode} {v : Bool} {s : State}
    (hi : i.requestMode = some m) (hr : s.ready m) (hsteps : stepsOf i s = [])
    (haccepted : accepted i s = s.acceptSetbl v) : exec i s = .next { s with
      seq := 0, op := .setbl, state := v, trace := s.trace ++ [.done .ok] } := by
  have ⟨_, hb, _⟩ := hr
  rw [exec_request hi hr, hsteps, haccepted]
  refine congrArg Host.Outcome.next (State.eq_of_fields ?_)
  simp [hb]

/-- Settles O15: `SETBL.4` has no step (R87). -/
theorem setbl4OnlyCompletes : Obligations.Setbl4OnlyCompletes :=
  ⟨fun v => by cases v <;> rfl,
    fun v _ hr => ⟨0, exec_setbl_without_steps (i := .setbl4 v) rfl hr rfl rfl⟩⟩

/-- Settles O16: `SETBL.8` has no step (R97). -/
theorem setbl8OnlyCompletes : Obligations.Setbl8OnlyCompletes :=
  ⟨fun v => by cases v <;> rfl,
    fun v _ hr => ⟨0, exec_setbl_without_steps (i := .setbl8 v) rfl hr rfl rfl⟩⟩

/-- An internal form that is answered `ok` throughout leaves its steps done and no completion
(R73). -/
theorem finishInternal_ok {ops : List Op} {s : State} (hok : s.answersOk ops.length) :
    finishInternal (perform ops s) = .next (afterAll s ops) := by
  rw [perform_all_ok hok]
  rfl

/-- Settles O17: the three steps of a pulse (R74). -/
theorem pulseRaisesHoldsAndLowers : Obligations.PulseRaisesHoldsAndLowers := by
  intro s hs hok
  rw [exec_pulse hs, finishInternal_ok hok, afterAll_eq]
  rfl

/-- Settles O18: the three steps of a nibble (R105). -/
theorem wrnibI2cSendsOneNibble : Obligations.WrnibI2cSendsOneNibble := by
  intro n d s hs hok x
  rw [exec_wrnibI2c hs, finishInternal_ok hok, afterAll_eq]
  rfl

/-- A request that is answered `ok` throughout adds its events and its completion (R72). -/
theorem newEvents_of_request_ok {i : Instr} {m : Mode} {s t : State} {n : Nat}
    (hi : i.requestMode = some m) (hlen : (stepsOf i s).length ≤ n) (hok : s.answersOk n)
    (h : exec i s = .next t) : s.newEvents t = requestEvents s i ++ [.done .ok] := by
  rw [(request_ok_events_lines hi (ready_of_exec hi h) hlen hok h).1, map_event_stepsOf s hi]

/-- What a `SETBL.I2C` answered `ok` throughout adds to the trace, leaves on the expander and takes
from the script: none of it reads the flag that was (R107). -/
theorem setblI2c_ok {v : Bool} {s t : State} (hok : s.answersOk 6)
    (h : exec (.setblI2c v) s = .next t) :
    s.newEvents t = writeI2cEvents s.cfg v 0x00 false ++ [.done .ok] ∧
      t.pexp = .known (lowerImage s.cfg v 0x00 false) ∧ t.env = s.env.drop 6 := by
  have hnew := newEvents_of_request_ok (i := .setblI2c v) rfl (Nat.le_refl 6) hok h
  have hnext := exec_request_ok_eq (i := .setblI2c v) rfl (ready_of_exec rfl h) (n := 6) rfl hok
  rw [h] at hnext
  rw [Host.Outcome.next.inj hnext] at hnew ⊢
  exact ⟨hnew, rfl, rfl⟩

/-- Settles O31: neither the bytes nor what they leave depend on the flag that was (R38). -/
theorem setblIsIdempotentOnTheWire : Obligations.SetblIsIdempotentOnTheWire := by
  intro v s t u hr hok hst htu
  have hfirst : s.answersOk 6 := fun a ha =>
    hok a (List.take_subset_take_left _ (by decide : 6 ≤ 12) ha)
  obtain ⟨hnew, hpexp, henv⟩ := setblI2c_ok hfirst hst
  have hsecond : t.answersOk 6 := fun a ha => by
    rw [henv, ← List.drop_take (i := 6) (j := 12)] at ha
    exact hok a (List.mem_of_mem_drop ha)
  obtain ⟨hnew', hpexp', -⟩ := setblI2c_ok hsecond htu
  obtain ⟨hbl, hcfg, -⟩ := exec_keeps (i := .setblI2c v) rfl hst
  obtain ⟨hbl', -⟩ := exec_keeps (i := .setblI2c v) rfl htu
  rw [hcfg] at hnew' hpexp'
  exact ⟨hnew.trans hnew'.symm, hbl'.trans hbl.symm, hpexp'.trans hpexp.symm⟩

/-- The longest step table has sixteen rows (R36). -/
theorem stepsOf_length_le {i : Instr} (s : State) : (stepsOf i s).length ≤ 16 := by
  cases i with
  | write4 b d => exact write4Steps_length_le s.cfg b d
  | write8 b d => cases d <;> simp [stepsOf, write8Steps, present8, pulseSteps, restoreRs]
  | setbl4 v | setbl8 v | pulse | writeI2c b d | setblI2c v | wrnibI2c n d =>
    simp [stepsOf, pulseSteps, writeI2cSteps, wrnibSteps]

/-- Settles O53: each request that nothing fails adds the rows of its step table, which are counted
(R36, R160). -/
theorem operationCountsOfEachRequest : Obligations.OperationCountsOfEachRequest := by
  intro i m s t hi hok h
  have hnew := newEvents_of_request_ok hi (stepsOf_length_le s) hok h
  rw [hnew]
  cases i with
  | write4 b d =>
    cases d <;> simp [requestEvents, write4Events, pinWrites, busWrites, busBytes, delays,
      pinPulses, heldMs] <;> omega
  | write8 b d =>
    cases d <;> simp [requestEvents, write8Events, pinWrites, busWrites, busBytes, delays,
      pinPulses, heldMs]
  | setbl4 v | setbl8 v => exact ⟨rfl, rfl, rfl, rfl, rfl, rfl⟩
  | writeI2c b d | setblI2c v =>
    refine ⟨rfl, rfl, rfl, rfl, ?_⟩
    simp [requestEvents, writeI2cEvents, heldMs]
    omega
  | wrnibI2c n d | pulse => trivial

end Sys2Proof.Machine

/-! Proofs of the statements about a request stopped at one of its steps: failed, cancelled,
answered with what cannot be, or answered late (40_contract.md R77 to R80; 60_exceptions.md R121 to
R123, R130, R131). -/

namespace Sys2Proof.Machine

/-- The state in which a request issues its step `k`, the steps before having been answered `ok`. -/
def atStep (i : Instr) (s : State) (k : Nat) : State :=
  afterAll (accepted i s) ((stepsOf i s).take k)

/-- The row of the step table behind an event of it. -/
theorem step_of_row {i : Instr} {m : Mode} {s : State} {k : Nat} {ev : Event}
    (hi : i.requestMode = some m) (h : (requestEvents s i)[k]? = some ev) :
    ∃ op, (stepsOf i s)[k]? = some op ∧ op.event = ev := by
  rw [← map_event_stepsOf s hi, List.getElem?_map] at h
  exact Option.map_eq_some_iff.mp h

/-- The step table cut at its step `k`. -/
theorem stepsOf_cut {i : Instr} {s : State} {k : Nat} {op : Op}
    (hop : (stepsOf i s)[k]? = some op) :
    stepsOf i s = (stepsOf i s).take k ++ op :: (stepsOf i s).drop (k + 1) ∧
      ((stepsOf i s).take k).length = k := by
  obtain ⟨hk, rfl⟩ := List.getElem?_eq_some_iff.mp hop
  exact ⟨by rw [List.getElem_cons_drop, List.take_append_drop], by simp [hk.le]⟩

section AtStep
variable {i : Instr} {m : Mode} {s : State} {k : Nat} {op : Op} {a : Answer} {rest : List Answer}
  (hi : i.requestMode = some m) (hop : (stepsOf i s)[k]? = some op)
  (henv : s.env = List.replicate k Answer.ok ++ a :: rest)
include hi hop henv

/-- The state before step `k`, field by field (R14, R16, R18). -/
theorem atStep_eq : atStep i s k = { accepted i s with
    seq := k
    lines := ((requestEvents s i).take k).foldl linesAfter s.lines
    pexp := ((requestEvents s i).take k).foldl pexpAfter s.pexp
    trace := s.trace ++ (requestEvents s i).take k
    env := a :: rest } := by
  obtain ⟨-, hlen⟩ := stepsOf_cut hop
  have hdrop : s.env.drop k = a :: rest := by simp [henv]
  rw [atStep, afterAll_eq, hlen, List.map_take, map_event_stepsOf s hi]
  refine State.eq_of_fields ?_
  simp [hdrop, accepted_seq_of_request hi]

theorem atStep_answer : (atStep i s k).answer = a := by
  rw [atStep_eq hi hop henv]
  rfl

/-- A request whose step `k` is not answered `ok` ends in what that step leaves (R40). -/
theorem exec_at_step (hr : s.ready m) (ha : a ≠ .ok) :
    exec i s = finishRequest (issue op (atStep i s k)) := by
  obtain ⟨hcut, hlen⟩ := stepsOf_cut hop
  rw [exec_request_at hi hr hcut (by rw [hlen, henv]),
    perform_cons_break (by rw [← atStep, atStep_answer hi hop henv]; exact ha), atStep]

/-- The whole next state of a request that fails at a pin write (R121, R122). -/
theorem exec_pinFail_eq {p : Pin} {v : Bool} {e : NativeErr} (hr : s.ready m)
    (hpin : op = .pinWrite p v) (ha : a = .fail e) : exec i s = .next { accepted i s with
      busy := s.busy
      seq := k
      lines := (((requestEvents s i).take k).foldl linesAfter s.lines).set p .x
      pexp := ((requestEvents s i).take k).foldl pexpAfter s.pexp
      failed := true
      trace := s.trace ++ (requestEvents s i).take k ++ [.pinFail p v e, .done (.err (.line p) e)]
      env := rest } := by
  have ⟨_, hb, _⟩ := hr
  subst hpin ha
  rw [exec_at_step hi hop henv hr nofun]
  simp only [issue, pinWrite, atStep_eq hi hop henv, finishRequest]
  exact congrArg Host.Outcome.next (State.eq_of_fields (by simp [hb]))

/-- The whole next state of a request that fails at a bus write (R121, R122). -/
theorem exec_busFail_eq {addr : Addr} {bytes : List Byte} {e : NativeErr} (hr : s.ready m)
    (hbus : op = .busWrite addr bytes) (ha : a = .fail e) : exec i s = .next { accepted i s with
      busy := s.busy
      seq := k
      lines := ((requestEvents s i).take k).foldl linesAfter s.lines
      pexp := .x
      failed := true
      trace := s.trace ++ (requestEvents s i).take k ++
        [.busFail addr bytes e, .done (.err .i2c e)]
      env := rest } := by
  have ⟨_, hb, _⟩ := hr
  subst hbus ha
  rw [exec_at_step hi hop henv hr nofun]
  simp only [issue, busWrite, atStep_eq hi hop henv, finishRequest]
  exact congrArg Host.Outcome.next (State.eq_of_fields (by simp [hb]))

/-- The whole next state of a request that is cancelled at a delay (R130, R131). -/
theorem exec_delayCancel_eq {n : Millis} (hr : s.ready m) (hx : s.cfg.exec = .suspending)
    (hdelay : op = .delayMs n) (ha : a = .cancel) : exec i s = .next { accepted i s with
      busy := s.busy
      seq := k
      lines := ((requestEvents s i).take k).foldl linesAfter s.lines
      pexp := ((requestEvents s i).take k).foldl pexpAfter s.pexp
      cancelled := true
      trace := s.trace ++ (requestEvents s i).take k ++ [.cancelled (.delayMs n)]
      env := rest } := by
  have ⟨_, hb, _⟩ := hr
  subst hdelay ha
  rw [exec_at_step hi hop henv hr nofun]
  simp only [issue, delayMs, atStep_eq hi hop henv, cancelPending,
    State.answered_cfg, accepted_cfg, hx, finishRequest]
  exact congrArg Host.Outcome.next (State.eq_of_fields (by simp [hb]))

/-- The whole next state of a request that is cancelled at a bus write (R130, R131). -/
theorem exec_busCancel_eq {addr : Addr} {bytes : List Byte} (hr : s.ready m)
    (hx : s.cfg.exec = .suspending) (hbus : op = .busWrite addr bytes) (ha : a = .cancel) :
    exec i s = .next { accepted i s with
      busy := s.busy
      seq := k
      lines := ((requestEvents s i).take k).foldl linesAfter s.lines
      pexp := .x
      cancelled := true
      trace := s.trace ++ (requestEvents s i).take k ++ [.cancelled (.busWrite addr bytes)]
      env := rest } := by
  have ⟨_, hb, _⟩ := hr
  subst hbus ha
  rw [exec_at_step hi hop henv hr nofun]
  simp only [issue, busWrite, atStep_eq hi hop henv, cancelPending,
    State.setPexp_cfg, State.answered_cfg, accepted_cfg, hx, finishRequest]
  exact congrArg Host.Outcome.next (State.eq_of_fields (by simp [hb]))

end AtStep

/-- The first rows of a step table without a bus write leave the expander alone (R18). -/
theorem pexp_after_rows {i : Instr} {m : Mode} {s : State} (hi : i.requestMode = some m)
    (hno : ∀ a bytes, .busWrite a bytes ∉ stepsOf i s) (k : Nat) :
    ((requestEvents s i).take k).foldl pexpAfter s.pexp = s.pexp := by
  rw [← map_event_stepsOf s hi, ← List.map_take]
  exact foldl_pexpAfter_of_noBus (fun a bytes h => hno a bytes (List.mem_of_mem_take h)) s.pexp

/-- The first rows of a step table of `I2C` mode leave the lines alone (R10, R16). -/
theorem lines_after_rows_i2c {i : Instr} {s : State} (hi : i.requestMode = some .i2c) (k : Nat) :
    ((requestEvents s i).take k).foldl linesAfter s.lines = s.lines := by
  obtain ⟨b, d, hsteps⟩ := stepsOf_i2c hi s
  rw [← map_event_stepsOf s hi, ← List.map_take, hsteps]
  refine Lines.ext_get fun p => foldl_linesAfter_get (fun v hv => ?_) s.lines
  exact noPin_writeI2cSteps _ _ _ _ p v (List.mem_of_mem_take hv)

/-- Settles O19: the first `k` rows are done, the failed line is unknown, and the tagged error ends
the request (R121, R122, R123). -/
theorem parallelWriteFailureAtEachStep : Obligations.ParallelWriteFailureAtEachStep := by
  intro i m b d s k p v e rest hi hr hrow henv
  have himode : i.requestMode = some m := by
    rcases hi with ⟨rfl, rfl⟩ | ⟨rfl, rfl⟩ <;> rfl
  have hno : ∀ a bytes, .busWrite a bytes ∉ stepsOf i s := by
    rcases hi with ⟨rfl, -⟩ | ⟨rfl, -⟩
    · exact noBus_write4Steps s.cfg b d
    · exact noBus_write8Steps s.cfg b d
  have haccepted : accepted i s = s.acceptWrite b d := by
    rcases hi with ⟨rfl, -⟩ | ⟨rfl, -⟩ <;> rfl
  obtain ⟨op, hop, hev⟩ := step_of_row himode hrow
  have hpin : op = .pinWrite p v := by cases op <;> cases hev; rfl
  have hnext := exec_pinFail_eq himode hop henv hr hpin rfl
  rw [pexp_after_rows himode hno, haccepted] at hnext
  exact ⟨k, hnext⟩

/-- Settles O20: the rows before the failed one are done, the latch is unknown, and the tagged error
ends the request (R121, R122, R123, R129). -/
theorem i2cFailureAtEachBusWrite : Obligations.I2cFailureAtEachBusWrite := by
  intro i s k a bytes e rest hi hr hrow henv
  obtain ⟨op, hop, hev⟩ := step_of_row hi hrow
  have hbus : op = .busWrite a bytes := by cases op <;> cases hev; rfl
  have hnext := exec_busFail_eq hi hop henv hr hbus rfl
  rw [lines_after_rows_i2c hi] at hnext
  exact ⟨_, hnext, hr.2.1, rfl, by simp, rfl, rfl, rfl, by simp, by simp, rfl⟩

/-- Settles O23: the rows before the hold are done, the last of them the rising edge (R131). -/
theorem cancelledHoldLeavesEnableHigh : Obligations.CancelledHoldLeavesEnableHigh := by
  refine ⟨fun b d s k rest hr hx hk henv => ?_, fun b d s rest hr hx henv => ?_⟩
  · rcases hk with rfl | rfl
    · have hnext := exec_delayCancel_eq (i := .write4 b d) rfl rfl henv hr hx rfl rfl
      exact ⟨6, hnext⟩
    · have hnext := exec_delayCancel_eq (i := .write4 b d) rfl rfl henv hr hx rfl rfl
      exact ⟨13, hnext⟩
  · have hnext := exec_delayCancel_eq (i := .write8 b d) rfl rfl henv hr hx rfl rfl
    exact ⟨10, hnext⟩

/-- A request of `I2C` mode cancelled at a step of its table: the bus write makes the latch unknown,
the hold leaves what its assert transaction left (R130, R131). -/
theorem cancelled_writeI2c_next {i : Instr} {s : State} {bl : Bool} {b : Byte} {d : Bool} {k : Nat}
    {o : Op} {rest : List Answer} (hi : i.requestMode = some .i2c) (hr : s.ready .i2c)
    (hx : s.cfg.exec = .suspending) (hsteps : stepsOf i s = writeI2cSteps s.cfg bl b d)
    (henv : s.env = List.replicate k Answer.ok ++ Answer.cancel :: rest)
    (ho : (writeI2cSteps s.cfg bl b d)[k]? = some o) :
    exec i s = .next { accepted i s with
      busy := s.busy
      seq := k
      lines := s.lines
      pexp := if k = 1 then .known (upperImage s.cfg bl b d ||| s.cfg.enBit)
        else if k = 4 then .known (lowerImage s.cfg bl b d ||| s.cfg.enBit) else .x
      cancelled := true
      trace := s.trace ++ (writeI2cEvents s.cfg bl b d).take k ++ [.cancelled o]
      env := rest } := by
  have hevents : requestEvents s i = writeI2cEvents s.cfg bl b d := by
    rw [← map_event_stepsOf s hi, hsteps]
    rfl
  have hlines := lines_after_rows_i2c (s := s) hi k
  have hop := hsteps ▸ ho
  have hdelay (h : o = .delayMs s.cfg.holdMs) := exec_delayCancel_eq hi hop henv hr hx h rfl
  have hbus (bytes) (h : o = .busWrite s.cfg.addr bytes) :=
    exec_busCancel_eq hi hop henv hr hx h rfl
  rw [hevents] at hlines
  simp only [hevents, hlines] at hdelay hbus
  have hk : k < 6 := (List.getElem?_eq_some_iff.mp ho).1
  interval_cases k <;> cases ho
  · exact hbus _ rfl
  · exact hdelay rfl
  · exact hbus _ rfl
  · exact hbus _ rfl
  · exact hdelay rfl
  · exact hbus _ rfl

/-- Settles O24: the rows before the cancelled one are done, and the pending operation decides what
the expander shows (R130, R131). -/
theorem cancelledI2cRequestAtEachStep : Obligations.CancelledI2cRequestAtEachStep := by
  intro i s bl b d k o rest hi hr hx henv ho
  have ⟨_, hb, _⟩ := hr
  rcases hi with ⟨rfl, rfl⟩ | ⟨rfl, rfl, rfl⟩
  · exact ⟨_, cancelled_writeI2c_next rfl hr hx rfl henv ho, hb, rfl, rfl, rfl, rfl, rfl, rfl, rfl,
      rfl⟩
  · exact ⟨_, cancelled_writeI2c_next rfl hr hx rfl henv ho, hb, rfl, rfl, rfl, rfl, rfl, rfl, rfl,
      rfl⟩

/-- Settles O25: an operation that the answer cannot be given to refuses it (R77, R78, R120,
R130). -/
theorem impossibleAnswersHaveNoStep : Obligations.ImpossibleAnswersHaveNoStep := by
  intro i m s k ev a rest hi hr hrow henv
  obtain ⟨op, hop, rfl⟩ := step_of_row hi hrow
  have hexec (ha : a ≠ .ok) := exec_at_step hi hop henv hr ha
  have hanswer := atStep_answer hi hop henv
  refine ⟨fun p v hev ha => ?_, fun p v hev ha => ?_, fun hev ha hx => ?_, fun n e hev ha => ?_⟩ <;>
    subst ha <;> rw [hexec nofun]
  · cases op <;> cases hev
    simp [issue, pinWrite, hanswer, finishRequest]
  · cases op <;> cases hev
    simp [issue, pinWrite, hanswer, finishRequest]
  · have hcfg : (atStep i s k).cfg.exec = .blocking := by simp [atStep, hx]
    cases op with
    | pinWrite p v => cases hev
    | busWrite addr bytes => simp [issue, busWrite, hanswer, cancelPending, hcfg, finishRequest]
    | delayMs n => simp [issue, delayMs, hanswer, cancelPending, hcfg, finishRequest]
  · cases op <;> cases hev
    simp [issue, delayMs, hanswer, finishRequest]

/-- A request left in flight by an answer that does not come waits before its step `k` (R80). -/
theorem waits_at_stall {i : Instr} {m : Mode} {s t : State} {k : Nat} {rest : List Answer}
    (hi : i.requestMode = some m) (hr : s.ready m)
    (henv : s.env = List.replicate k Answer.ok ++ Answer.stall :: rest)
    (h : exec i s = .next t) (hb : t.busy = true) :
    k < (stepsOf i s).length ∧ t = atStep i s k := by
  by_cases hk : k < (stepsOf i s).length
  · refine ⟨hk, ?_⟩
    have hop := List.getElem?_eq_getElem hk
    rw [exec_at_step hi hop henv hr nofun] at h
    have hbreaks := issue_breaks (op := (stepsOf i s)[k]) (s := atStep i s k)
      (by simp [atStep_answer hi hop henv])
    cases hp : issue (stepsOf i s)[k] (atStep i s k) with
    | running u => exact absurd (hp ▸ hbreaks) Breaks.not_running
    | ended u =>
      rw [hp] at h hbreaks
      cases h
      exact ((hbreaks.stops (.inl rfl)).eq_of_busy hb).1
    | waiting u =>
      rw [hp] at h hbreaks
      cases h
      exact ((hbreaks.stops (.inr rfl)).eq_of_busy hb).1
    | refused r => rw [hp] at h; cases h
  · have hok : s.answersOk (stepsOf i s).length := by
      intro a ha
      rw [henv, List.take_append_of_le_length (by simpa using hk)] at ha
      exact List.eq_of_mem_replicate (List.mem_of_mem_take ha)
    rw [exec_request_ok hi hr hok] at h
    cases h
    cases hb

/-- The step table does not depend on the script. -/
theorem stepsOf_withEnv (i : Instr) (s : State) (env : List Answer) :
    stepsOf i { s with env := env } = stepsOf i s := by
  cases i <;> rfl

/-- The state before step `k` under another script that answers the steps before it `ok`. -/
theorem atStep_withEnv {i : Instr} {s : State} {k : Nat} (hk : k ≤ (stepsOf i s).length)
    (env : List Answer) : atStep i { s with env := List.replicate k .ok ++ env } k =
      { atStep i s k with env := env } := by
  have haccepted (e : List Answer) :
      accepted i { s with env := e } = { accepted i s with env := e } := by
    cases i <;> rfl
  have hlen : ((stepsOf i s).take k).length = k := by simp [hk]
  rw [atStep, atStep, stepsOf_withEnv, haccepted, afterAll_eq, afterAll_eq, hlen]
  refine State.eq_of_fields ?_
  simp

/-- Settles O27: a request that waits is in the state in which it issued the pending step, and there
the late answer meets it (R14, R78, R80). -/
theorem lateAnswerChangesNothing : Obligations.LateAnswerChangesNothing := by
  intro i m s t k a rest rest' hi hr henv h hb
  have ⟨_, _, hm⟩ := hr
  obtain ⟨hk, rfl⟩ := waits_at_stall hi hr henv h hb
  obtain ⟨hcut, hlen⟩ := stepsOf_cut (List.getElem?_eq_getElem hk)
  have hatOnce := exec_request_at (s := { s with env := List.replicate k Answer.ok ++ a :: rest' })
    hi hr ((stepsOf_withEnv i s _).trans hcut) (by rw [hlen])
  have hlate := step_after_wait hi hm hcut (a :: rest')
  rw [← atStep] at hlate
  have hsame := atStep_withEnv hk.le (a :: rest')
  rw [atStep, stepsOf_withEnv] at hsame
  rw [hatOnce, hlate, hsame]

end Sys2Proof.Machine

/-! Proofs of the statements about the latch trace (60_exceptions.md R137; 41_fourbit.md R90;
42_eightbit.md R99; 43_i2c.md R109, R111). -/

namespace Sys2Proof.Machine

/-- A request that is answered `ok` throughout adds to the latch trace what its steps add, watched
from the block's shadows (R137). -/
theorem latchTrace_of_request_ok {i : Instr} {m : Mode} {s t : State} {n : Nat}
    (hi : i.requestMode = some m) (hs : s.recordsItsTrace) (hlen : (stepsOf i s).length ≤ n)
    (hok : s.answersOk n) (h : exec i s = .next t) :
    ∃ w : Watch, w.lines = s.lines ∧ w.pexp = s.pexp ∧ w.tuples = latchTrace s.cfg s.trace ∧
      latchTrace s.cfg t.trace =
        (((stepsOf i s).map Op.event).foldl (watch s.cfg) w).tuples := by
  rw [exec_request_ok hi (ready_of_exec hi h)
    fun a ha => hok a (List.take_subset_take_left _ hlen ha)] at h
  cases h
  obtain ⟨w, hlines, hpexp, htuples, hlatch⟩ := latchTrace_append s.cfg hs
    (t := (afterAll (accepted i s) (stepsOf i s)).completeOk)
    (l := (stepsOf i s).map Op.event ++ [.done .ok]) (by simp)
  refine ⟨w, hlines, hpexp, htuples, hlatch.trans ?_⟩
  rw [List.foldl_append]
  rfl

/-! The parallel modes. -/

/-- What the controller of a parallel block sees on its lines (R137). -/
def lineTuple (m : Mode) (l : Lines) : LatchTuple := ⟨l.rs, (dataPins m).reverse.map l.get⟩

/-- Pin writes without a falling edge of enable latch nothing (R137). -/
theorem watch_lines_tuples {ops : List Op} (hpins : ∀ op ∈ ops, op.suspends = false)
    (hen : .pinWrite .en false ∉ ops) (c : Config) (w : Watch) :
    ((ops.map Op.event).foldl (watch c) w).tuples = w.tuples := by
  induction ops generalizing w with
  | nil => rfl
  | cons op ops ih =>
    rw [List.map_cons, List.foldl_cons, ih (fun o ho => hpins o (List.mem_cons_of_mem _ ho))
      fun h => hen (List.mem_cons_of_mem _ h)]
    cases op with
    | busWrite a bytes | delayMs n => cases hpins _ List.mem_cons_self
    | pinWrite p v =>
      refine if_neg ?_
      rintro ⟨rfl, rfl, -⟩
      exact hen List.mem_cons_self

/-- A pulse after such writes latches what they left on the lines (R137). -/
theorem watch_pulse_tuples {ops : List Op} (hpins : ∀ op ∈ ops, op.suspends = false)
    (hen : .pinWrite .en false ∉ ops) (c : Config) (w : Watch) :
    (((ops ++ pulseSteps c).map Op.event).foldl (watch c) w).tuples =
      w.tuples ++ [lineTuple c.mode ((ops.map Op.event).foldl linesAfter w.lines)] := by
  have htuples := watch_lines_tuples hpins hen c w
  have hlines := foldl_watch_lines c w (ops.map Op.event)
  rw [List.map_append, List.foldl_append, ← htuples, ← hlines]
  generalize (ops.map Op.event).foldl (watch c) w = w'
  cases hm : c.mode <;> simp [pulseSteps, Op.event, watch, watchPin, lineTuple, dataPins, Lines.set,
    Lines.get, hm]

/-- The steps of `WRITE.4`: two presentations, each with its pulse, and the restored
register-select (R88). -/
theorem write4Steps_cut (c : Config) (b : Byte) (d : Bool) :
    write4Steps c b d = (.pinWrite .rs d :: present4 (hi4 b) ++ pulseSteps c) ++
      (present4 (lo4 b) ++ pulseSteps c) ++ restoreRs d := by
  simp [write4Steps]

/-- The steps of `WRITE.8`: the presentation with its pulse, and the restored register-select
(R98). -/
theorem write8Steps_cut (c : Config) (b : Byte) (d : Bool) :
    write8Steps c b d =
      (.pinWrite .rs d :: present8 b ++ pulseSteps c) ++ restoreRs d := by
  simp [write8Steps]

/-- Register-select back to low latches nothing. -/
theorem watch_restoreRs_tuples (d : Bool) (c : Config) (w : Watch) :
    (((restoreRs d).map Op.event).foldl (watch c) w).tuples = w.tuples :=
  watch_lines_tuples (by cases d <;> simp [restoreRs, Op.suspends])
    (by cases d <;> simp [restoreRs]) c w

/-- Settles O50: each of the two pulses latches what the presentation before it left on the lines
(R90, R137). -/
theorem write4LatchesBothNibbles : Obligations.Write4LatchesBothNibbles := by
  intro b d s t ⟨_, _, hm⟩ hs _ hok h
  obtain ⟨w, hlines, -, htuples, hlatch⟩ := latchTrace_of_request_ok (i := .write4 b d) rfl hs
    (write4Steps_length_le s.cfg b d) hok h
  have hupper := watch_pulse_tuples (ops := .pinWrite .rs d :: present4 (hi4 b))
    (by simp [present4, Op.suspends]) (by simp [present4]) s.cfg
  have hlower := watch_pulse_tuples (ops := present4 (lo4 b))
    (by simp [present4, Op.suspends]) (by simp [present4]) s.cfg
  rw [hlatch, stepsOf, write4Steps_cut, List.map_append, List.map_append, List.foldl_append,
    List.foldl_append, watch_restoreRs_tuples, hlower, foldl_watch_lines, hupper, htuples, hm,
    present4_hi4, present4_lo4, List.append_assoc]
  rfl

/-- Settles O51: the pulse latches what the presentation before it left on the lines (R99, R137). -/
theorem write8LatchesTheByte : Obligations.Write8LatchesTheByte := by
  intro b d s t ⟨_, _, hm⟩ hs _ hok h
  obtain ⟨w, hlines, -, htuples, hlatch⟩ := latchTrace_of_request_ok (i := .write8 b d) rfl hs
    (by cases d <;> simp [stepsOf, write8Steps, present8, pulseSteps, restoreRs]) hok h
  have hbyte := watch_pulse_tuples (ops := .pinWrite .rs d :: present8 b)
    (by simp [present8, Op.suspends]) (by simp [present8]) s.cfg
  rw [hlatch, stepsOf, write8Steps_cut, List.map_append, List.foldl_append,
    watch_restoreRs_tuples, hbyte, htuples, hm]
  rfl

/-! `I2C` mode. -/

theorem watchByte_pexp (c : Config) (w : Watch) (y : Byte) :
    (watchByte c w y).pexp = .known y := by
  unfold watchByte
  cases w.pexp <;> rfl

/-- A byte after one with enable clear, or after none that is known, latches nothing (R137). -/
theorem watchByte_tuples_of_low {c : Config} {w : Watch}
    (h : ∀ y, w.pexp = .known y → hasMask y c.enBit = false) (y : Byte) :
    (watchByte c w y).tuples = w.tuples := by
  unfold watchByte
  cases hp : w.pexp with
  | x => rfl
  | known y0 => simp [h y0 hp]

/-- A byte that clears enable after one that set it latches (R137). -/
theorem watchByte_tuples_of_fall {c : Config} {w : Watch} {y0 y : Byte} (hp : w.pexp = .known y0)
    (h0 : hasMask y0 c.enBit = true) (h : hasMask y c.enBit = false) :
    (watchByte c w y).tuples = w.tuples ++ [fallTuple c y0 y] := by
  simp [watchByte, hp, h0, h]

/-- At the falling edge of a nibble register-select and the data lines are settled (R109, R111). -/
theorem fallTuple_expanderByte {c : Config} (hc : c.masksLegal = true) {n : Byte}
    (hn : n &&& 0x0F = 0) (d bl : Bool) :
    fallTuple c (assertByte c (expanderByte c n d bl)) (expanderByte c n d bl) =
      ⟨.known d, [.known (n.getLsbD 7), .known (n.getLsbD 6), .known (n.getLsbD 5),
        .known (n.getLsbD 4)]⟩ := by
  obtain ⟨hrs, -, -, hrs', -⟩ := control_bits hc n d bl hn
  have hbit (i : Nat) (h4 : 4 ≤ i) (h8 : i < 8) := nibble_bits hc n d bl h4 h8
  obtain ⟨h4, h4'⟩ := hbit 4 (by decide) (by decide)
  obtain ⟨h5, h5'⟩ := hbit 5 (by decide) (by decide)
  obtain ⟨h6, h6'⟩ := hbit 6 (by decide) (by decide)
  obtain ⟨h7, h7'⟩ := hbit 7 (by decide) (by decide)
  simp only [fallTuple, settled, hrs, hrs', h4, h4', h5, h5', h6, h6', h7, h7', if_true]

/-- A nibble sent to an expander whose enable is not high is latched once (R105, R109). -/
theorem watch_wrnibSteps_tuples {c : Config} (hc : c.masksLegal = true) {n : Byte}
    (hn : n &&& 0x0F = 0) (d bl : Bool) {w : Watch}
    (hw : ∀ y, w.pexp = .known y → hasMask y c.enBit = false) :
    (((wrnibSteps c bl n d).map Op.event).foldl (watch c) w).tuples = w.tuples ++
      [⟨.known d, [.known (n.getLsbD 7), .known (n.getLsbD 6), .known (n.getLsbD 5),
        .known (n.getLsbD 4)]⟩] := by
  obtain ⟨-, hlow, -, -, hhigh, -⟩ := control_bits hc n d bl hn
  rw [← fallTuple_expanderByte hc hn d bl]
  show (watchByte c (watchByte c (watchByte c w (expanderByte c n d bl))
    (assertByte c (expanderByte c n d bl))) (expanderByte c n d bl)).tuples = _
  generalize expanderByte c n d bl = x at hlow hhigh ⊢
  have hfirst : ∀ y, (watchByte c w x).pexp = .known y → hasMask y c.enBit = false := by
    rintro y hy
    rw [watchByte_pexp] at hy
    cases hy
    exact hlow
  rw [watchByte_tuples_of_fall (watchByte_pexp _ _ _) hhigh hlow, watchByte_tuples_of_low hfirst,
    watchByte_tuples_of_low hw]

/-- Settles O52: each nibble is latched at the falling edge of its transactions, the first from the
expander as it was, the second from the first (R109, R111, R137). -/
theorem i2cRequestsLatchTheirNibbles : Obligations.I2cRequestsLatchTheirNibbles := by
  intro i b d s t _ hc hs hlow hok hi h
  have hmode : i.requestMode = some .i2c := by
    rcases hi with rfl | ⟨v, rfl, -⟩ <;> rfl
  obtain ⟨bl, hsteps⟩ : ∃ bl, stepsOf i s = writeI2cSteps s.cfg bl b d := by
    rcases hi with rfl | ⟨v, rfl, rfl, rfl⟩
    · exact ⟨s.bl, rfl⟩
    · exact ⟨v, rfl⟩
  obtain ⟨w, -, hpexp, htuples, hlatch⟩ :=
    latchTrace_of_request_ok hmode hs (hsteps ▸ Nat.le_refl 6) hok h
  have hupper := watch_wrnibSteps_tuples hc (low_bits_up b) d bl (w := w)
    (by rw [hpexp]; exact hlow)
  have hrest : ∀ y, (((wrnibSteps s.cfg bl (up b) d).map Op.event).foldl (watch s.cfg) w).pexp =
      .known y → hasMask y s.cfg.enBit = false := by
    intro y hy
    rw [foldl_watch_pexp] at hy
    cases hy
    exact (control_bits hc (up b) d bl (low_bits_up b)).2.1
  rw [hlatch, hsteps, writeI2cSteps, List.map_append, List.foldl_append,
    watch_wrnibSteps_tuples hc (low_bits_dn b) d bl hrest, hupper, htuples, List.append_assoc]
  simp only [getLsbD_up, getLsbD_dn]
  rfl

end Sys2Proof.Machine
